-- ==== Sys2Proof/Word.lean ====
section
/-! DEFINITION. The word types of the RV32I core: registers, the pc, bus addresses and fetched words are
32 bits (R5, R7), the addressable unit is the byte (R37), a register field is 5 bits (R93). -/

namespace Sys2Proof

/-- A 32-bit value: a general register, the pc, a bus address, an instruction word (XLEN = PCLEN = 32,
R5, R7). `+` and `-` on it are modulo 2^32, `BitVec.toNat` reads it as unsigned, `BitVec.toInt` is the
spec's `signed(v)` (R16). -/
abbrev Word := BitVec 32

/-- The addressable unit of memory (R37). -/
abbrev Byte := BitVec 8

/-- A register field: five bits that name x0 to x31 directly (R6, R93). -/
abbrev Reg := BitVec 5

end Sys2Proof
end

