-- ==== Sys2Proof/Syntax.lean ====
section
/-! DEFINITION. The instructions: one constructor per row of the opcode map (R107, 40 rows). An `imm` is
the 32-bit immediate of the Decoded Instruction, already assembled and sign-extended (R32, R95). Function
bits that a word holds and the default setting does not examine (R112) are kept as operands, so that an
instruction holds its whole word. -/

namespace Sys2Proof

inductive Instr where
  -- OP-IMM (R170 to R178); SLLI keeps its whole I immediate, of which the shifter uses imm[4:0]
  | addi  (rd rs1 : Reg) (imm : Word)
  | slti  (rd rs1 : Reg) (imm : Word)
  | sltiu (rd rs1 : Reg) (imm : Word)
  | xori  (rd rs1 : Reg) (imm : Word)
  | ori   (rd rs1 : Reg) (imm : Word)
  | andi  (rd rs1 : Reg) (imm : Word)
  | slli  (rd rs1 : Reg) (imm : Word)
  | srli  (rd rs1 : Reg) (shamt : BitVec 5)
  | srai  (rd rs1 : Reg) (shamt : BitVec 5)
  -- OP (R190 to R199); funct7 where the dispatch table does not list it
  | add   (rd rs1 rs2 : Reg)
  | sub   (rd rs1 rs2 : Reg)
  | sll   (rd rs1 rs2 : Reg) (funct7 : BitVec 7)
  | slt   (rd rs1 rs2 : Reg) (funct7 : BitVec 7)
  | sltu  (rd rs1 rs2 : Reg) (funct7 : BitVec 7)
  | xor   (rd rs1 rs2 : Reg) (funct7 : BitVec 7)
  | srl   (rd rs1 rs2 : Reg)
  | sra   (rd rs1 rs2 : Reg)
  | or    (rd rs1 rs2 : Reg) (funct7 : BitVec 7)
  | and   (rd rs1 rs2 : Reg) (funct7 : BitVec 7)
  -- LUI, AUIPC (R210, R211)
  | lui   (rd : Reg) (imm : Word)
  | auipc (rd : Reg) (imm : Word)
  -- jumps (R220, R221); JALR's funct3 is not listed by the dispatch table
  | jal   (rd : Reg) (imm : Word)
  | jalr  (rd rs1 : Reg) (imm : Word) (funct3 : BitVec 3)
  -- branches (R231 to R236)
  | beq   (rs1 rs2 : Reg) (imm : Word)
  | bne   (rs1 rs2 : Reg) (imm : Word)
  | blt   (rs1 rs2 : Reg) (imm : Word)
  | bge   (rs1 rs2 : Reg) (imm : Word)
  | bltu  (rs1 rs2 : Reg) (imm : Word)
  | bgeu  (rs1 rs2 : Reg) (imm : Word)
  -- loads (R252 to R256)
  | lb    (rd rs1 : Reg) (imm : Word)
  | lh    (rd rs1 : Reg) (imm : Word)
  | lw    (rd rs1 : Reg) (imm : Word)
  | lbu   (rd rs1 : Reg) (imm : Word)
  | lhu   (rd rs1 : Reg) (imm : Word)
  -- stores (R257 to R259), in assembler order: the stored register, then the base
  | sb    (rs2 rs1 : Reg) (imm : Word)
  | sh    (rs2 rs1 : Reg) (imm : Word)
  | sw    (rs2 rs1 : Reg) (imm : Word)
  -- SYSTEM and MISC-MEM (R270, R271, R274); FENCE keeps the fields its word holds
  | ecall
  | ebreak
  | fence (rd rs1 : Reg) (imm : Word)
deriving DecidableEq, Repr

end Sys2Proof
end

