-- ==== Sys2Proof/WellFormed.lean ====
section
/-! DEFINITION. Which instructions an encoding admits: the ranges of the immediates (R97 to R101), and
under STRICT_DECODE the canonical function fields (R112). -/

namespace Sys2Proof

/-- A 12-bit immediate, formats I and S: -2048 .. 2047 (R97, R98). -/
def immFits12 (imm : Word) : Bool := decide (-2048 ≤ imm.toInt ∧ imm.toInt ≤ 2047)

/-- A branch offset, format B: -4096 .. 4094, always even (R99). -/
def immFitsB (imm : Word) : Bool :=
  decide (-4096 ≤ imm.toInt ∧ imm.toInt ≤ 4094 ∧ imm.toInt % 2 = 0)

/-- An upper immediate, format U: the low 12 bits are zero (R100). -/
def immFitsU (imm : Word) : Bool := decide (imm.toNat % 4096 = 0)

/-- A jump offset, format J: -1048576 .. 1048574, always even (R101). -/
def immFitsJ (imm : Word) : Bool :=
  decide (-1048576 ≤ imm.toInt ∧ imm.toInt ≤ 1048574 ∧ imm.toInt % 2 = 0)

/-- A function field the dispatch table does not list: anything, or under STRICT_DECODE zero, the
standard value of every one of them (R107 "strict:", R112). -/
def functFits (strict : Bool) {n : Nat} (f : BitVec n) : Bool := !strict || decide (f = 0)

/-- The instructions that have an encoding under the given setting of STRICT_DECODE. -/
def Instr.wf (strict : Bool) (i : Instr) : Bool :=
  match i with
  | .addi _ _ imm | .slti _ _ imm | .sltiu _ _ imm | .xori _ _ imm | .ori _ _ imm
  | .andi _ _ imm => immFits12 imm
  | .slli _ _ imm => immFits12 imm && functFits strict (imm.extractLsb' 5 7)
  | .srli _ _ _ | .srai _ _ _ => true
  | .add _ _ _ | .sub _ _ _ | .srl _ _ _ | .sra _ _ _ => true
  | .sll _ _ _ f | .slt _ _ _ f | .sltu _ _ _ f | .xor _ _ _ f | .or _ _ _ f
  | .and _ _ _ f => functFits strict f
  | .lui _ imm | .auipc _ imm => immFitsU imm
  | .jal _ imm => immFitsJ imm
  | .jalr _ _ imm f => immFits12 imm && functFits strict f
  | .beq _ _ imm | .bne _ _ imm | .blt _ _ imm | .bge _ _ imm | .bltu _ _ imm
  | .bgeu _ _ imm => immFitsB imm
  | .lb _ _ imm | .lh _ _ imm | .lw _ _ imm | .lbu _ _ imm | .lhu _ _ imm => immFits12 imm
  | .sb _ _ imm | .sh _ _ imm | .sw _ _ imm => immFits12 imm
  | .ecall | .ebreak => true
  | .fence _ _ imm => immFits12 imm

end Sys2Proof
end

