-- ==== Sys2Proof/Decode.lean ====
section
/-! DEFINITION. The decoder (R90 to R106), the dispatch map (R107, R108, R112, R113) and the encoder,
written from the same tables of 30_encoding.md. -/

namespace Sys2Proof

/-! ### The extension primitives (R17, R140) -/

/-- `sext_N(v)`: the low `n` bits of `v` as a two's-complement number, at 32 bits. Only the low `n` bits
are looked at (C10). -/
def sext (n : Nat) (v : Word) : Word := (v.setWidth n).signExtend 32

/-- `zext_N(v)`: the low `n` bits of `v` as an unsigned number, at 32 bits. -/
def zext (n : Nat) (v : Word) : Word := (v.setWidth n).setWidth 32

/-! ### Fields (R93) -/

/-- The `n` bits of `w` from bit `lo` upward. -/
def field (w : Word) (lo n : Nat) : BitVec n := w.extractLsb' lo n

/-- The word that holds `f` from bit `lo` upward and zeros elsewhere. -/
def place (lo : Nat) {n : Nat} (f : BitVec n) : Word := f.setWidth 32 <<< lo

/-- The eleven recognised opcodes, under the names of R103. -/
inductive Opcode where
  | op | opImm | load | jalr | system | miscMem | store | branch | lui | auipc | jal
deriving DecidableEq, Repr

/-- The six encoding formats (R91). -/
inductive Format where
  | R | I | S | B | U | J
deriving DecidableEq, Repr

/-- Bits 6:0 of each recognised opcode (R103). -/
def Opcode.bits : Opcode → BitVec 7
  | .op      => 0b0110011#7
  | .opImm   => 0b0010011#7
  | .load    => 0b0000011#7
  | .jalr    => 0b1100111#7
  | .system  => 0b1110011#7
  | .miscMem => 0b0001111#7
  | .store   => 0b0100011#7
  | .branch  => 0b1100011#7
  | .lui     => 0b0110111#7
  | .auipc   => 0b0010111#7
  | .jal     => 0b1101111#7

/-- The format of each recognised opcode (R103). -/
def Opcode.format : Opcode → Format
  | .op => .R
  | .opImm | .load | .jalr | .system | .miscMem => .I
  | .store => .S
  | .branch => .B
  | .lui | .auipc => .U
  | .jal => .J

/-- The recognised opcode that bits 6:0 name, if any (R103, R104). -/
def Opcode.ofBits (b : BitVec 7) : Option Opcode :=
  if b = 0b0110011#7 then some .op
  else if b = 0b0010011#7 then some .opImm
  else if b = 0b0000011#7 then some .load
  else if b = 0b1100111#7 then some .jalr
  else if b = 0b1110011#7 then some .system
  else if b = 0b0001111#7 then some .miscMem
  else if b = 0b0100011#7 then some .store
  else if b = 0b1100011#7 then some .branch
  else if b = 0b0110111#7 then some .lui
  else if b = 0b0010111#7 then some .auipc
  else if b = 0b1101111#7 then some .jal
  else none

/-- `detectFormat`: a function of the opcode alone; none for an unrecognised one (R103 to R105). -/
def detectFormat (opcode : BitVec 7) : Option Format := (Opcode.ofBits opcode).map Opcode.format

/-! ### Immediates (R95 to R101) -/

/-- Format I (R97). -/
def immI (w : Word) : Word := sext 12 (place 0 (field w 20 12))

/-- Format S (R98): bits 31:25 are imm[11:5], bits 11:7 are imm[4:0]. -/
def immS (w : Word) : Word := sext 12 (place 5 (field w 25 7) ||| place 0 (field w 7 5))

/-- Format B (R99): bit 31 is imm[12], bit 7 imm[11], bits 30:25 imm[10:5], bits 11:8 imm[4:1]. -/
def immB (w : Word) : Word :=
  sext 13 (place 12 (field w 31 1) ||| place 11 (field w 7 1) ||| place 5 (field w 25 6) |||
    place 1 (field w 8 4))

/-- Format U (R100): bits 31:12 in place, the low 12 bits zero (C9). -/
def immU (w : Word) : Word := place 12 (field w 12 20)

/-- Format J (R101): bit 31 is imm[20], bits 19:12 imm[19:12], bit 20 imm[11], bits 30:21 imm[10:1]. -/
def immJ (w : Word) : Word :=
  sext 21 (place 20 (field w 31 1) ||| place 12 (field w 12 8) ||| place 11 (field w 20 1) |||
    place 1 (field w 21 10))

/-- `decodeImmediate` (R96 to R101). -/
def decodeImmediate (w : Word) : Format → Word
  | .R => 0
  | .I => immI w
  | .S => immS w
  | .B => immB w
  | .U => immU w
  | .J => immJ w

/-! ### The Decoded Instruction (R32, R106) -/

/-- The record the decoder makes of one fetched word (R32). It lives inside one step. -/
structure Decoded where
  raw    : Word
  opcode : BitVec 7
  rd     : Reg
  funct3 : BitVec 3
  rs1    : Reg
  rs2    : Reg
  funct7 : BitVec 7
  format : Format
  imm    : Word
deriving DecidableEq, Repr

/-- `decode(w)`: all six fields, the format, the immediate; none for an unrecognised opcode (R106). -/
def decode (w : Word) : Option Decoded :=
  match detectFormat (field w 0 7) with
  | none => none
  | some fmt =>
    some { raw := w, opcode := field w 0 7, rd := field w 7 5, funct3 := field w 12 3,
           rs1 := field w 15 5, rs2 := field w 20 5, funct7 := field w 25 7, format := fmt,
           imm := decodeImmediate w fmt }

/-! ### Dispatch (R107, R108, R112, R113) -/

/-- The row of R107 that an OP-IMM word selects; funct3 = 101 has the funct7 tie-break (R179, R180). -/
def dispatchOpImm (strict : Bool) (d : Decoded) : Option Instr :=
  if d.funct3 = 0b000#3 then some (.addi d.rd d.rs1 d.imm)
  else if d.funct3 = 0b010#3 then some (.slti d.rd d.rs1 d.imm)
  else if d.funct3 = 0b011#3 then some (.sltiu d.rd d.rs1 d.imm)
  else if d.funct3 = 0b100#3 then some (.xori d.rd d.rs1 d.imm)
  else if d.funct3 = 0b110#3 then some (.ori d.rd d.rs1 d.imm)
  else if d.funct3 = 0b111#3 then some (.andi d.rd d.rs1 d.imm)
  else if d.funct3 = 0b001#3 then
    if functFits strict d.funct7 then some (.slli d.rd d.rs1 d.imm) else none
  else
    if d.funct7 = 0b0000000#7 then some (.srli d.rd d.rs1 (field d.imm 0 5))
    else if d.funct7 = 0b0100000#7 then some (.srai d.rd d.rs1 (field d.imm 0 5))
    else none

/-- The row of R107 that an OP word selects; funct7 is a tie-break for 000 and 101 alone (R200 to R202). -/
def dispatchOp (strict : Bool) (d : Decoded) : Option Instr :=
  if d.funct3 = 0b000#3 then
    if d.funct7 = 0b0000000#7 then some (.add d.rd d.rs1 d.rs2)
    else if d.funct7 = 0b0100000#7 then some (.sub d.rd d.rs1 d.rs2)
    else none
  else if d.funct3 = 0b101#3 then
    if d.funct7 = 0b0000000#7 then some (.srl d.rd d.rs1 d.rs2)
    else if d.funct7 = 0b0100000#7 then some (.sra d.rd d.rs1 d.rs2)
    else none
  else if functFits strict d.funct7 then
    if d.funct3 = 0b001#3 then some (.sll d.rd d.rs1 d.rs2 d.funct7)
    else if d.funct3 = 0b010#3 then some (.slt d.rd d.rs1 d.rs2 d.funct7)
    else if d.funct3 = 0b011#3 then some (.sltu d.rd d.rs1 d.rs2 d.funct7)
    else if d.funct3 = 0b100#3 then some (.xor d.rd d.rs1 d.rs2 d.funct7)
    else if d.funct3 = 0b110#3 then some (.or d.rd d.rs1 d.rs2 d.funct7)
    else some (.and d.rd d.rs1 d.rs2 d.funct7)
  else none

/-- The row of R107 that a BRANCH word selects; 010 and 011 select no comparator (R237). -/
def dispatchBranch (d : Decoded) : Option Instr :=
  if d.funct3 = 0b000#3 then some (.beq d.rs1 d.rs2 d.imm)
  else if d.funct3 = 0b001#3 then some (.bne d.rs1 d.rs2 d.imm)
  else if d.funct3 = 0b100#3 then some (.blt d.rs1 d.rs2 d.imm)
  else if d.funct3 = 0b101#3 then some (.bge d.rs1 d.rs2 d.imm)
  else if d.funct3 = 0b110#3 then some (.bltu d.rs1 d.rs2 d.imm)
  else if d.funct3 = 0b111#3 then some (.bgeu d.rs1 d.rs2 d.imm)
  else none

/-- The row of R107 that a LOAD word selects; 011, 110 and 111 select none (R260). Whether the row may
execute is the instruction's own test of LS_ENABLE (R251). -/
def dispatchLoad (d : Decoded) : Option Instr :=
  if d.funct3 = 0b000#3 then some (.lb d.rd d.rs1 d.imm)
  else if d.funct3 = 0b001#3 then some (.lh d.rd d.rs1 d.imm)
  else if d.funct3 = 0b010#3 then some (.lw d.rd d.rs1 d.imm)
  else if d.funct3 = 0b100#3 then some (.lbu d.rd d.rs1 d.imm)
  else if d.funct3 = 0b101#3 then some (.lhu d.rd d.rs1 d.imm)
  else none

/-- The row of R107 that a STORE word selects; 011 and above select none (R260). -/
def dispatchStore (d : Decoded) : Option Instr :=
  if d.funct3 = 0b000#3 then some (.sb d.rs2 d.rs1 d.imm)
  else if d.funct3 = 0b001#3 then some (.sh d.rs2 d.rs1 d.imm)
  else if d.funct3 = 0b010#3 then some (.sw d.rs2 d.rs1 d.imm)
  else none

/-- The two SYSTEM words that are rows of the opcode map (R270, R271). Every other SYSTEM word is a
dispatch error too (R272, R273). -/
def dispatchSystem (d : Decoded) : Option Instr :=
  if d.raw = 0x00000073#32 then some .ecall
  else if d.raw = 0x00100073#32 then some .ebreak
  else none

/-- FENCE, the MISC-MEM words with funct3 = 000 (R274). Every other MISC-MEM word is a dispatch error
too. -/
def dispatchMiscMem (d : Decoded) : Option Instr :=
  if d.funct3 = 0b000#3 then some (.fence d.rd d.rs1 d.imm) else none

/-- The row of R107 that a decoded instruction selects: opcode first, then funct3, then funct7 (R108);
none where no row matches (R113). -/
def dispatch (strict : Bool) (d : Decoded) : Option Instr :=
  match Opcode.ofBits d.opcode with
  | none => none
  | some .opImm => dispatchOpImm strict d
  | some .op => dispatchOp strict d
  | some .lui => some (.lui d.rd d.imm)
  | some .auipc => some (.auipc d.rd d.imm)
  | some .jal => some (.jal d.rd d.imm)
  | some .jalr =>
    if functFits strict d.funct3 then some (.jalr d.rd d.rs1 d.imm d.funct3) else none
  | some .branch => dispatchBranch d
  | some .load => dispatchLoad d
  | some .store => dispatchStore d
  | some .system => dispatchSystem d
  | some .miscMem => dispatchMiscMem d

/-- Why a word names no instruction. The two kinds must be kept apart (R109). -/
inductive Reject where
  /-- Bits 6:0 are none of the eleven opcodes (R104). -/
  | unrecognisedOpcode
  /-- The opcode is recognised and no row of the dispatch map matches (R113). -/
  | noExecutePath
deriving DecidableEq, Repr

/-- The instruction a fetched word names, under the given STRICT_DECODE. Total: every word is an
instruction or is rejected by name. -/
def decodeWord (strict : Bool) (w : Word) : Except Reject Instr :=
  match decode w with
  | none => .error .unrecognisedOpcode
  | some d =>
    match dispatch strict d with
    | none => .error .noExecutePath
    | some i => .ok i

/-! ### Bytes -/

/-- Why a list of bytes names no instruction. -/
inductive BytesReject where
  /-- Fewer than four bytes: every instruction is one 32-bit word (R90). -/
  | truncated
  | word (r : Reject)
deriving DecidableEq, Repr

/-- The word of four bytes in memory order: the first is the least significant (R54, R66). -/
def wordOfBytes (b0 b1 b2 b3 : Byte) : Word := place 0 b0 ||| place 8 b1 ||| place 16 b2 ||| place 24 b3

/-- Decode the instruction at the head of a list of bytes; answers it with the rest of the list. -/
def decodeBytes (strict : Bool) : List Byte → Except BytesReject (Instr × List Byte)
  | b0 :: b1 :: b2 :: b3 :: rest =>
    match decodeWord strict (wordOfBytes b0 b1 b2 b3) with
    | .ok i => .ok (i, rest)
    | .error r => .error (.word r)
  | _ => .error .truncated

/-- The four bytes of a word in memory order (R55). -/
def bytesOfWord (w : Word) : List Byte := [field w 0 8, field w 8 8, field w 16 8, field w 24 8]

/-- The word that the opcode table's numbering gives: bits at and above `nbits` are 0. -/
def tableWord (nbits w : Nat) : Word := BitVec.ofNat 32 (w % 2 ^ nbits)

/-- The instruction the decoder reads from a word numbered as spec/opcode_table.json numbers it, in the
default setting STRICT_DECODE = false, which the table's `mask` and `match` state. -/
def decodeTableWord (nbits w : Nat) : Option Instr :=
  match decodeBytes false (bytesOfWord (tableWord nbits w)) with
  | .ok (i, _) => some i
  | .error _ => none

/-! ### The encoder (R92, R103, R107) -/

/-- Format R. -/
def encR (f7 : BitVec 7) (rs2 rs1 : Reg) (f3 : BitVec 3) (rd : Reg) (opc : Opcode) : Word :=
  place 25 f7 ||| place 20 rs2 ||| place 15 rs1 ||| place 12 f3 ||| place 7 rd ||| place 0 opc.bits

/-- Format I: bits 31:20 are imm[11:0]. -/
def encI (imm : Word) (rs1 : Reg) (f3 : BitVec 3) (rd : Reg) (opc : Opcode) : Word :=
  place 20 (field imm 0 12) ||| place 15 rs1 ||| place 12 f3 ||| place 7 rd ||| place 0 opc.bits

/-- Format S: bits 31:25 are imm[11:5], bits 11:7 are imm[4:0]. -/
def encS (imm : Word) (rs2 rs1 : Reg) (f3 : BitVec 3) (opc : Opcode) : Word :=
  place 25 (field imm 5 7) ||| place 20 rs2 ||| place 15 rs1 ||| place 12 f3 |||
    place 7 (field imm 0 5) ||| place 0 opc.bits

/-- Format B: bit 31 is imm[12], bits 30:25 imm[10:5], bits 11:8 imm[4:1], bit 7 imm[11]. -/
def encB (imm : Word) (rs2 rs1 : Reg) (f3 : BitVec 3) (opc : Opcode) : Word :=
  place 31 (field imm 12 1) ||| place 25 (field imm 5 6) ||| place 20 rs2 ||| place 15 rs1 |||
    place 12 f3 ||| place 8 (field imm 1 4) ||| place 7 (field imm 11 1) ||| place 0 opc.bits

/-- Format U: bits 31:12 are imm[31:12]. -/
def encU (imm : Word) (rd : Reg) (opc : Opcode) : Word :=
  place 12 (field imm 12 20) ||| place 7 rd ||| place 0 opc.bits

/-- Format J: bit 31 is imm[20], bits 30:21 imm[10:1], bit 20 imm[11], bits 19:12 imm[19:12]. -/
def encJ (imm : Word) (rd : Reg) (opc : Opcode) : Word :=
  place 31 (field imm 20 1) ||| place 21 (field imm 1 10) ||| place 20 (field imm 11 1) |||
    place 12 (field imm 12 8) ||| place 7 rd ||| place 0 opc.bits

/-- The word of an instruction. -/
def encode : Instr → Word
  | .addi rd rs1 imm  => encI imm rs1 0b000#3 rd .opImm
  | .slti rd rs1 imm  => encI imm rs1 0b010#3 rd .opImm
  | .sltiu rd rs1 imm => encI imm rs1 0b011#3 rd .opImm
  | .xori rd rs1 imm  => encI imm rs1 0b100#3 rd .opImm
  | .ori rd rs1 imm   => encI imm rs1 0b110#3 rd .opImm
  | .andi rd rs1 imm  => encI imm rs1 0b111#3 rd .opImm
  | .slli rd rs1 imm  => encI imm rs1 0b001#3 rd .opImm
  | .srli rd rs1 sh   => encR 0b0000000#7 sh rs1 0b101#3 rd .opImm
  | .srai rd rs1 sh   => encR 0b0100000#7 sh rs1 0b101#3 rd .opImm
  | .add rd rs1 rs2    => encR 0b0000000#7 rs2 rs1 0b000#3 rd .op
  | .sub rd rs1 rs2    => encR 0b0100000#7 rs2 rs1 0b000#3 rd .op
  | .sll rd rs1 rs2 f  => encR f rs2 rs1 0b001#3 rd .op
  | .slt rd rs1 rs2 f  => encR f rs2 rs1 0b010#3 rd .op
  | .sltu rd rs1 rs2 f => encR f rs2 rs1 0b011#3 rd .op
  | .xor rd rs1 rs2 f  => encR f rs2 rs1 0b100#3 rd .op
  | .srl rd rs1 rs2    => encR 0b0000000#7 rs2 rs1 0b101#3 rd .op
  | .sra rd rs1 rs2    => encR 0b0100000#7 rs2 rs1 0b101#3 rd .op
  | .or rd rs1 rs2 f   => encR f rs2 rs1 0b110#3 rd .op
  | .and rd rs1 rs2 f  => encR f rs2 rs1 0b111#3 rd .op
  | .lui rd imm   => encU imm rd .lui
  | .auipc rd imm => encU imm rd .auipc
  | .jal rd imm   => encJ imm rd .jal
  | .jalr rd rs1 imm f => encI imm rs1 f rd .jalr
  | .beq rs1 rs2 imm  => encB imm rs2 rs1 0b000#3 .branch
  | .bne rs1 rs2 imm  => encB imm rs2 rs1 0b001#3 .branch
  | .blt rs1 rs2 imm  => encB imm rs2 rs1 0b100#3 .branch
  | .bge rs1 rs2 imm  => encB imm rs2 rs1 0b101#3 .branch
  | .bltu rs1 rs2 imm => encB imm rs2 rs1 0b110#3 .branch
  | .bgeu rs1 rs2 imm => encB imm rs2 rs1 0b111#3 .branch
  | .lb rd rs1 imm  => encI imm rs1 0b000#3 rd .load
  | .lh rd rs1 imm  => encI imm rs1 0b001#3 rd .load
  | .lw rd rs1 imm  => encI imm rs1 0b010#3 rd .load
  | .lbu rd rs1 imm => encI imm rs1 0b100#3 rd .load
  | .lhu rd rs1 imm => encI imm rs1 0b101#3 rd .load
  | .sb rs2 rs1 imm => encS imm rs2 rs1 0b000#3 .store
  | .sh rs2 rs1 imm => encS imm rs2 rs1 0b001#3 .store
  | .sw rs2 rs1 imm => encS imm rs2 rs1 0b010#3 .store
  | .ecall  => encI 0 0 0b000#3 0 .system
  | .ebreak => encI 1 0 0b000#3 0 .system
  | .fence rd rs1 imm => encI imm rs1 0b000#3 rd .miscMem

end Sys2Proof
end

