-- ==== Sys2Proof/Config.lean ====
section
/-! DEFINITION. The parameters of the step (R8 to R14, R20, R50 to R53): what is fixed for one machine
when reset is released. The spec leaves them open; State carries one Config and no step changes it, so
every statement about all states is a statement about all parameter values. Beside them the free values:
what a peripheral's `read` and `write` answer. -/

namespace Sys2Proof

/-- What answers an access to a device's range. RAM is the only device whose behaviour the spec gives
(R50, R62); any other registered device is a `peripheral`, known by a number, whose `read` and `write` are
`Config.peripheralRead` and `Config.peripheralWrite` (R12, R52, U17). -/
inductive DeviceKind where
  | ram
  | peripheral (id : Nat)
deriving DecidableEq, Repr

/-- A registered device. `startAddress()` is `start`, `endAddress()` is `last`: it owns the CLOSED interval of
byte addresses [start, last] (R52, R53, C2). -/
structure Device where
  start : Word
  last  : Word
  kind  : DeviceKind
deriving DecidableEq, Repr

/-- An access that a peripheral has completed: its `read` or its `write`, at an absolute bus address, of `width`
bytes (R52). -/
inductive DeviceAccess where
  | read (id : Nat) (addr : Word) (width : Nat)
  | write (id : Nat) (addr : Word) (width : Nat) (value : Word)
deriving DecidableEq, Repr

/-- The parameters of the step. The image base is not a field: `IMAGE_BASE = RAM_BASE` (R10). -/
structure Config where
  /-- `RAM_BASE` (R8). -/
  ramBase : Word
  /-- `RAM_SIZE`, a number of bytes (R9). -/
  ramSize : Nat
  /-- `IMAGE_LEN`, a number of bytes (R10). -/
  imageLen : Nat
  /-- `DEVICES`, in registration order (R12). -/
  devices : List Device
  /-- `LS_ENABLE` (R13). -/
  lsEnable : Bool
  /-- `STRICT_DECODE` (R14). -/
  strictDecode : Bool
deriving DecidableEq, Repr

namespace Config

/-- `IMAGE_BASE` = `RAM_BASE` (R10). -/
def imageBase (c : Config) : Word := c.ramBase

/-- The default parameters. RAM_SIZE, DEVICES = [RAM], LS_ENABLE and STRICT_DECODE are the spec's
defaults (R9, R12, R13, R14). PRESUMED (log 2): RAM_BASE = 0x8000_0000; the spec gives none and names
this value as general knowledge (R8). The image is empty until one is supplied (R10; log 4). -/
def default : Config where
  ramBase := 0x80000000#32
  ramSize := 0x08000000
  imageLen := 0
  devices := [⟨0x80000000#32, 0x87FFFFFF#32, .ram⟩]
  lsEnable := false
  strictDecode := false

/-- FREE VALUE (log 8): what the `read(addr, widthBytes)` of peripheral `id` answers after the accesses `past` (the
latest first): a value, or a failure with the byte address it names. The spec says that every device has a `read`
that may fail (R52, R61), that a peripheral's is an arbitrary operation of the device (R69), and that a model takes
it as a parameter (U17): nothing is known of it here. -/
opaque peripheralRead (id : Nat) (past : List DeviceAccess) (addr : Word) (width : Nat) : Except Nat Word

/-- FREE VALUE (log 8): whether the `write(addr, widthBytes, value)` of peripheral `id` completes after the accesses
`past`, or fails with the byte address it names (R52, R61, R69, U17). -/
opaque peripheralWrite (id : Nat) (past : List DeviceAccess) (addr : Word) (width : Nat) (value : Word) :
  Except Nat Unit

end Config

end Sys2Proof
end

