-- ==== Sys2Proof/Machine/State.lean ====
section
/-! DEFINITION. The state of the machine (R20, R31), why it stops (R283), and the state after reset (R312). -/

namespace Sys2Proof.Machine

/-! ### Stops -/

/-- Which access a bus failure belongs to (R283, R286). -/
inductive AccessKind where
  | fetch | load | store
deriving DecidableEq, Repr

/-- A stop: its cause with the information recorded (R280, R283). `pcOut` is the normal end of a run, the
other four are errors. -/
inductive Stop where
  /-- The pc is outside the loaded image (R288). -/
  | pcOut (pc : Word)
  /-- The fetched word has an unrecognised opcode (R284). -/
  | decodeError (word : Word)
  /-- The fetched word has a recognised opcode and no execute path (R285). -/
  | dispatchError (word : Word)
  /-- No device is mapped for the access (R286). -/
  | busError (kind : AccessKind) (addr : Word) (width : Nat)
  /-- A device failed at a byte address: RAM's own bounds check (R287), or a peripheral (R61; log 28). -/
  | deviceFault (addr : Nat)
deriving DecidableEq, Repr

/-- The run status (R31). -/
inductive Status where
  | running
  | stopped (why : Stop)
deriving DecidableEq, Repr

/-- Why a step ends with no next state.

Taking a stop is a NEXT state, the one R281 describes (status written, the rest kept). This type is for
what comes after. -/
inductive Fault where
  /-- Raised by `step` alone, from a state whose status is already `stopped why`: no step is possible
  there (R130, R289). For `pcOut` it is the normal end of the run, for the four other causes the error
  the run ended with. Safe: the hardware takes no step either. -/
  | halted (why : Stop)
deriving DecidableEq, Repr

/-- Why an instruction is given no meaning. -/
inductive Refusal where
  /-- Raised by `exec` for an instruction that has no meaning yet. Safe. No arm raises it. -/
  | notModelled (mnemonic : String)
deriving DecidableEq, Repr

/-! ### State -/

/-- The contents of RAM, by BUS address: bus address a holds `ram[a - RAM_BASE]` (R62). Kept in one
canonical form, `Memory.wf`. -/
abbrev Memory := List Host.Cell

/-- The complete state of the block (R20), and beside it the parameters of the step.

`regs` has a slot for x0 that no accessor reads or writes: `State.x` and `State.setX` are the one place
where register 0 is hard-wired (R22, R23). -/
structure State where
  /-- The general registers x0 .. x31 (R21). -/
  regs   : Vector Word 32
  /-- The program counter (R27). -/
  pc     : Word
  /-- The run status with its stop information (R31). -/
  status : Status
  /-- The contents of RAM (R20 (d), R62). -/
  mem    : Memory
  /-- The contents of the devices other than RAM (R20 (d)), as the accesses they have completed since reset, the
  latest first: what a device answers next is a free value of these (log 8, log 27). -/
  io     : List DeviceAccess
  /-- The parameters of the step (R20): read by it, never written. -/
  cfg    : Config
deriving DecidableEq, Repr

/-- How one instruction, or one step, ends. -/
abbrev Result := Host.Outcome State Fault Refusal

/-- The state after reset under the default parameters (R312), with no image supplied.

x2 = RAM_BASE + RAM_SIZE mod 2^32 (R24); x0 = 0 (R22); the other registers 0, the default of INIT_REGS
(R25; log 3); pc = IMAGE_BASE (R29); status running (R31); memory with nothing listed, so RAM_FILL = 0
(R62 leaves it open; log 5); no access made to any device (R311). `Reset.lean` has the reset state for any parameters. -/
def State.reset : State where
  regs   := (Vector.replicate 32 0#32).set 2 0x88000000#32
  pc     := 0x80000000#32
  status := .running
  mem    := []
  io     := []
  cfg    := Config.default

end Sys2Proof.Machine
end

