-- ==== Sys2Proof/Machine/Ops.lean ====
section
/-! DEFINITION. The named operations over registers, memory, the bus and the status: every meaning is
written over these. -/

namespace Sys2Proof.Machine

/-! ### RAM as a list of cells -/

namespace Memory

/-- What an address with no cell reads as. DESIGN CHOICE (log 5): the spec leaves the bytes no image covers
open (RAM_FILL, R62) and permits 0. Every RAM contents is some list of cells over this default, so a
statement about every state is a statement about every RAM_FILL. -/
def unlisted : Byte := 0

/-- The byte at a bus address. -/
def read : Memory → Nat → Byte
  | [], _ => unlisted
  | (k, v) :: m, a => if a = k then v else read m a

/-- `cons a cell`, or nothing where the byte is what an unlisted address reads as. -/
def cell (a : Nat) (b : Byte) (m : Memory) : Memory := if b = unlisted then m else (a, b) :: m

/-- Write one byte, keeping the canonical form. -/
def write : Memory → Nat → Byte → Memory
  | [], a, b => cell a b []
  | (k, v) :: m, a, b =>
    if a < k then cell a b ((k, v) :: m)
    else if a = k then cell a b m
    else (k, v) :: write m a b

/-- Write bytes at ascending addresses. -/
def writeBytes (m : Memory) (a : Nat) : List Byte → Memory
  | [] => m
  | b :: bs => writeBytes (m.write a b) (a + 1) bs

/-- The canonical form: addresses strictly rising, and no cell that holds what an unlisted address reads
as. Equal contents are then equal lists. -/
def wf : Memory → Bool
  | [] => true
  | (k, v) :: m => decide (v ≠ unlisted) && m.all (fun c => decide (k < c.1)) && wf m

end Memory

/-! ### Devices and the bus (R50 to R66) -/

/-- The byte address lies in RAM's buffer: RAM_BASE <= a < RAM_BASE + RAM_SIZE, on unbounded integers
(R62, R63). -/
def inRam (c : Config) (a : Nat) : Bool := decide (c.ramBase.toNat ≤ a ∧ a < c.ramBase.toNat + c.ramSize)

/-- The access widths the device contract admits: 1 to 4 bytes (R51). -/
inductive Width where
  | one | two | three | four
deriving DecidableEq, Repr

/-- `widthBytes`. -/
def Width.bytes : Width → Nat
  | .one => 1
  | .two => 2
  | .three => 3
  | .four => 4

/-- The device's range contains the whole access, on unbounded integers: no wrap at the top of the address
space (R57, R78). -/
def deviceContains (d : Device) (addr : Word) (n : Width) : Bool :=
  decide (d.start.toNat ≤ addr.toNat ∧ addr.toNat + n.bytes - 1 ≤ d.last.toNat)

/-- `findDevice`: the first device in registration order whose range contains the access (R57). -/
def findDevice : List Device → Word → Width → Option Device
  | [], _, _ => none
  | d :: ds, addr, n => if deviceContains d addr n then some d else findDevice ds addr n

/-- How a bus access fails. The bus reports it to its caller and does not itself stop (R60, R61). -/
inductive BusFailure where
  /-- No device owns the access (R57). -/
  | noDeviceMapped (addr : Word) (width : Nat)
  /-- RAM's per-byte bounds check failed at this byte address (R65). -/
  | outOfBounds (addr : Nat)
  /-- A peripheral failed the access and named this byte address (R52, R61). -/
  | peripheralFailed (addr : Nat)
deriving DecidableEq, Repr

/-- RAM's `read`: byte at a time from the lowest address, each bounds-checked, the lowest address the least
significant byte (R54, R63). The error is the first byte address out of bounds. -/
def ramRead (c : Config) (m : Memory) (a : Nat) : Nat → Except Nat Word
  | 0 => .ok 0
  | n + 1 =>
    if inRam c a then
      match ramRead c m (a + 1) n with
      | .ok rest => .ok ((m.read a).setWidth 32 ||| rest <<< 8)
      | .error e => .error e
    else .error a

/-- What a write leaves: the memory, and the failure if it failed. -/
inductive WriteResult (φ : Type) where
  | done (m : Memory)
  | failed (f : φ) (m : Memory)
deriving DecidableEq, Repr

/-- RAM's `write`: byte at a time in ascending address order, each bounds-checked, byte i being bits
8i+7 : 8i of the value (R55, R64). Bytes stored before a failing byte stay stored (R65). -/
def ramWrite (c : Config) (m : Memory) (a : Nat) : Nat → Word → WriteResult Nat
  | 0, _ => .done m
  | n + 1, v =>
    if inRam c a then ramWrite c (m.write a (field v 0 8)) (a + 1) n (v >>> 8) else .failed a m

/-- A peripheral's `read(addr, widthBytes)`: a free value below 2^(8n), or a failure (R52, R54; log 8). -/
def peripheralRead (id : Nat) (past : List DeviceAccess) (addr : Word) (n : Width) : Except Nat Word :=
  match Config.peripheralRead id past addr n.bytes with
  | .ok v => .ok (zext (8 * n.bytes) v)
  | .error a => .error a

/-- A peripheral's `write(addr, widthBytes, value)`: it is given the low n bytes of the value (R52, R55; log 8). -/
def peripheralWrite (id : Nat) (past : List DeviceAccess) (addr : Word) (n : Width) (v : Word) :
    Except Nat Unit :=
  Config.peripheralWrite id past addr n.bytes (zext (8 * n.bytes) v)

/-- `MemRead(addr, n)` (R58). A failed read changes nothing. -/
def memRead (c : Config) (m : Memory) (io : List DeviceAccess) (addr : Word) (n : Width) :
    Except BusFailure Word :=
  match findDevice c.devices addr n with
  | none => .error (.noDeviceMapped addr n.bytes)
  | some ⟨_, _, .ram⟩ =>
    match ramRead c m addr.toNat n.bytes with
    | .ok v => .ok v
    | .error a => .error (.outOfBounds a)
  | some ⟨_, _, .peripheral id⟩ =>
    match peripheralRead id io addr n with
    | .ok v => .ok v
    | .error a => .error (.peripheralFailed a)

/-- What a completed MemRead leaves with the devices: RAM's read has no effect (R63); a peripheral's may have any, so
the access is recorded (R69). -/
def ioAfterRead (c : Config) (io : List DeviceAccess) (addr : Word) (n : Width) : List DeviceAccess :=
  match findDevice c.devices addr n with
  | none => io
  | some ⟨_, _, .ram⟩ => io
  | some ⟨_, _, .peripheral id⟩ => .read id addr n.bytes :: io

/-- `MemWrite(addr, n, v)` (R59): the contents of RAM it leaves. On "no device mapped" nothing is stored. -/
def memWrite (c : Config) (m : Memory) (io : List DeviceAccess) (addr : Word) (n : Width) (v : Word) :
    WriteResult BusFailure :=
  match findDevice c.devices addr n with
  | none => .failed (.noDeviceMapped addr n.bytes) m
  | some ⟨_, _, .ram⟩ =>
    match ramWrite c m addr.toNat n.bytes v with
    | .done m' => .done m'
    | .failed a m' => .failed (.outOfBounds a) m'
  | some ⟨_, _, .peripheral id⟩ =>
    match peripheralWrite id io addr n v with
    | .ok _ => .done m
    | .error a => .failed (.peripheralFailed a) m

/-- What a completed MemWrite leaves with the devices other than RAM. -/
def ioAfterWrite (c : Config) (io : List DeviceAccess) (addr : Word) (n : Width) (v : Word) :
    List DeviceAccess :=
  match findDevice c.devices addr n with
  | none => io
  | some ⟨_, _, .ram⟩ => io
  | some ⟨_, _, .peripheral id⟩ => .write id addr n.bytes (zext (8 * n.bytes) v) :: io

/-! ### Well-formed configurations (R9, R10, R53, R56, R313) -/

/-- RAM as it is registered on the bus: [RAM_BASE, RAM_BASE + RAM_SIZE - 1] (R53, R56, R62). -/
def ramDevice (c : Config) : Device :=
  ⟨c.ramBase, c.ramBase + BitVec.ofNat 32 (c.ramSize - 1), .ram⟩

/-- Two closed ranges share no address. -/
def deviceDisjoint (d e : Device) : Bool := decide (d.last < e.start ∨ e.last < d.start)

/-- Every device's range is a range, and the ranges are pairwise disjoint (R53, R56). -/
def devicesWf : List Device → Bool
  | [] => true
  | d :: ds => decide (d.start ≤ d.last) && ds.all (fun e => deviceDisjoint d e) && devicesWf ds

/-- The preconditions of reset (R313): RAM fits the address space and holds the image, the device ranges
are disjoint, RAM is registered, and a device that is RAM has exactly RAM's range. -/
def configWf (c : Config) : Bool :=
  decide (4 ≤ c.ramSize) && decide (c.ramBase.toNat + c.ramSize ≤ 2 ^ 32) &&
  decide (c.imageLen ≤ c.ramSize) && devicesWf c.devices &&
  decide (ramDevice c ∈ c.devices) &&
  c.devices.all (fun d => decide (d.kind = .ram → d = ramDevice c))

/-- RAM is the only kind of device registered: the default, and the only devices the spec describes
(R12, R50). -/
def onlyRam (c : Config) : Bool := c.devices.all (fun d => decide (d.kind = .ram))

/-! ### Registers and the pc -/

/-- `x[i]` (R17, R22): register 0 reads as zero. -/
def State.x (s : State) (r : Reg) : Word := if r = 0 then 0 else s.regs[r.toNat]

/-- `x[i] <- v` (R17, R23): a write to register 0 is discarded. This stands for D1's `x[0] <- 0` after
every instruction, to which R23 says it is equivalent. -/
def State.setX (s : State) (r : Reg) (v : Word) : State :=
  if r = 0 then s else { s with regs := s.regs.set r.toNat v }

/-- `pc <- t` (R17). -/
def State.jump (s : State) (t : Word) : State := { s with pc := t }

/-- `pc <- pc + 4`, modulo 2^32 (R28). -/
def State.advance (s : State) : State := s.jump (s.pc + 4)

/-- The memory replaced. -/
def State.withMem (s : State) (m : Memory) : State := { s with mem := m }

/-- A bus read has completed: what it leaves with the devices. -/
def State.afterRead (s : State) (addr : Word) (n : Width) : State :=
  { s with io := ioAfterRead s.cfg s.io addr n }

/-- The instruction fetch at the pc has completed: 4 bytes, over the same bus as a data access (R66). -/
def State.afterFetch (s : State) : State := s.afterRead s.pc .four

/-- A bus write has completed: RAM's contents are `m`, and what it leaves with the other devices. -/
def State.afterWrite (s : State) (m : Memory) (addr : Word) (n : Width) (v : Word) : State :=
  { s with mem := m, io := ioAfterWrite s.cfg s.io addr n v }

/-- A straight-line instruction with a register result completes: x[rd] is written, the pc advances
(R28, R135). -/
def State.retire (s : State) (rd : Reg) (v : Word) : State := (s.setX rd v).advance

/-- `InImage(pc)`: IMAGE_BASE <= pc < IMAGE_BASE + IMAGE_LEN, on unbounded integers, on the pc alone
(R38, R131). -/
def inImage (c : Config) (a : Word) : Bool :=
  decide (c.imageBase.toNat ≤ a.toNat ∧ a.toNat < c.imageBase.toNat + c.imageLen)

/-! ### Stops: the one exceptional mechanism (R280 to R293)

There is no handler, no saved pc and no return from a stop (R292, R293): only reset leaves it (R289). -/

/-- `raise <Cause>(info)`: the registers, the pc and the memory keep their values, the status records the
stop (R281, R282). -/
def State.raise (s : State) (why : Stop) : State := { s with status := .stopped why }

/-- The stop that the CPU makes of a bus failure of an access (R261, R286, R287, R291); a device's failure reaches it
unchanged (R61; log 28). -/
def stopOf (kind : AccessKind) : BusFailure → Stop
  | .noDeviceMapped addr width => .busError kind addr width
  | .outOfBounds a => .deviceFault a
  | .peripheralFailed a => .deviceFault a

/-- The numeric code of a stop cause (R283). -/
def Stop.code : Stop → Nat
  | .pcOut _ => 1
  | .decodeError _ => 2
  | .dispatchError _ => 3
  | .busError _ _ _ => 4
  | .deviceFault _ => 5

/-- The numeric code the observation interface exposes: 0 while running (R283). -/
def Status.code : Status → Nat
  | .running => 0
  | .stopped why => why.code

/-! ### Observation (R33) -/

/-- The read-only snapshot: 32 register values, the pc, the status. -/
structure Snapshot where
  regs   : Vector Word 32
  pc     : Word
  status : Status
deriving DecidableEq, Repr

/-- The snapshot of a state, taken at an instruction boundary or after a stop (R33). -/
def observe (s : State) : Snapshot where
  regs   := Vector.ofFn (fun i : Fin 32 => s.x (BitVec.ofFin i))
  pc     := s.pc
  status := s.status

/-! ### Placing an instruction word -/

/-- The state with one instruction word where the next step fetches, and with what that step needs: status
running, the four bytes at the pc in memory, and the image reaching over them (I-1, R10, R15, R316;
log 6). -/
def placeWord (s : State) (w : Word) : State :=
  { s with
    status := .running
    mem := s.mem.writeBytes s.pc.toNat (bytesOfWord w)
    cfg := { s.cfg with imageLen := max s.cfg.imageLen (s.pc.toNat + 4 - s.cfg.imageBase.toNat) } }

end Sys2Proof.Machine
end

