-- ==== Sys2Proof/Machine/Operands.lean ====
section
/-! DEFINITION. The operand forms: the ALU with its shift amount (R141 to R152), and the addresses an
instruction computes (R28, R220, R221, R230, R250). -/

namespace Sys2Proof.Machine

/-- The ten operations of the ALU: a closed enumeration, so D1's "unknown op" cannot arise (R141, R153). -/
inductive AluOp where
  | add | sub | and | or | xor | sll | srl | sra | slt | sltu
deriving DecidableEq, Repr

/-- The shift amount: the low five bits of the second operand, 0 to 31 (R146). -/
def shiftAmount (b : Word) : Nat := b.toNat % 32

/-- A comparison's result: 1 or 0, at 32 bits (R151, R152). -/
def flagWord (p : Bool) : Word := if p then 1 else 0

/-- `ALU(op, a, b)` (R141 to R152). -/
def alu (op : AluOp) (a b : Word) : Word :=
  match op with
  | .add  => a + b
  | .sub  => a - b
  | .and  => a &&& b
  | .or   => a ||| b
  | .xor  => a ^^^ b
  | .sll  => a <<< shiftAmount b
  | .srl  => a >>> shiftAmount b
  | .sra  => a.sshiftRight (shiftAmount b)
  | .slt  => flagWord (decide (a.toInt < b.toInt))
  | .sltu => flagWord (decide (a.toNat < b.toNat))

/-- The shift-immediates' operand: the five-bit amount at 32 bits (R102). -/
def shamtOperand (sh : BitVec 5) : Word := sh.setWidth 32

/-- The address of the next instruction in line, the link value of a jump (R28, R222). -/
def linkAddr (s : State) : Word := s.pc + 4

/-- The pc-relative target of JAL and of a taken branch, and the value of AUIPC (R211, R220, R230). -/
def pcTarget (s : State) (imm : Word) : Word := s.pc + imm

/-- JALR's target: base plus immediate with bit 0 cleared (R221). -/
def jalrTarget (s : State) (rs1 : Reg) (imm : Word) : Word := (s.x rs1 + imm) &&& 0xFFFFFFFE#32

/-- The effective address of a load or a store, the only addressing mode (R250, R262). -/
def effAddr (s : State) (rs1 : Reg) (imm : Word) : Word := s.x rs1 + imm

end Sys2Proof.Machine
end

