-- ==== Sys2Proof/Machine/Flags.lean ====
section
/-! DEFINITION. The hardware has no flags and no condition codes (R34). What decides a branch is the branch
unit, a comparison of two registers (R155 to R157). -/

namespace Sys2Proof.Machine

/-- The six comparators: a closed enumeration, so D1's "unknown cmp" cannot arise (R155, R158). -/
inductive Cmp where
  | eq | ne | lt | ge | ltu | geu
deriving DecidableEq, Repr

/-- `Branch(cmp, a, b)` (R155 to R157). -/
def branchTaken (cmp : Cmp) (a b : Word) : Bool :=
  match cmp with
  | .eq  => decide (a = b)
  | .ne  => decide (a ≠ b)
  | .lt  => decide (a.toInt < b.toInt)
  | .ge  => decide (b.toInt ≤ a.toInt)
  | .ltu => decide (a.toNat < b.toNat)
  | .geu => decide (b.toNat ≤ a.toNat)

end Sys2Proof.Machine
end

