-- ==== Sys2Proof/Machine/Branches.lean ====
section
/-! DEFINITION. Conditional branches (45_branches.md, R230 to R236): the pc alone changes. -/

namespace Sys2Proof.Machine

/-- The shape of the family (R230). -/
def branch (cmp : Cmp) (rs1 rs2 : Reg) (imm : Word) (s : State) : Result :=
  .next (if branchTaken cmp (s.x rs1) (s.x rs2) then s.jump (pcTarget s imm) else s.advance)

/-- R231. -/
def execBeq (rs1 rs2 : Reg) (imm : Word) (s : State) : Result := branch .eq rs1 rs2 imm s

/-- R232. -/
def execBne (rs1 rs2 : Reg) (imm : Word) (s : State) : Result := branch .ne rs1 rs2 imm s

/-- R233. -/
def execBlt (rs1 rs2 : Reg) (imm : Word) (s : State) : Result := branch .lt rs1 rs2 imm s

/-- R234. -/
def execBge (rs1 rs2 : Reg) (imm : Word) (s : State) : Result := branch .ge rs1 rs2 imm s

/-- R235. -/
def execBltu (rs1 rs2 : Reg) (imm : Word) (s : State) : Result := branch .ltu rs1 rs2 imm s

/-- R236. -/
def execBgeu (rs1 rs2 : Reg) (imm : Word) (s : State) : Result := branch .geu rs1 rs2 imm s

end Sys2Proof.Machine
end

