-- ==== Sys2Proof/Machine/Jumps.lean ====
section
/-! DEFINITION. Unconditional jumps (44_jumps.md, R220 to R223): the link value goes to x[rd], the target
to pc as computed, with no alignment check. -/

namespace Sys2Proof.Machine

/-- R220. -/
def execJal (rd : Reg) (imm : Word) (s : State) : Result :=
  .next ((s.setX rd (linkAddr s)).jump (pcTarget s imm))

/-- R221: x[rs1] is read before x[rd] is written (R136). -/
def execJalr (rd rs1 : Reg) (imm : Word) (s : State) : Result :=
  .next ((s.setX rd (linkAddr s)).jump (jalrTarget s rs1 imm))

end Sys2Proof.Machine
end

