-- ==== Sys2Proof/Machine/LoadsStores.lean ====
section
/-! DEFINITION. Loads and stores (46_loads_stores.md). With LS_ENABLE false each stops the core with a
dispatch error that records its word (R251); with LS_ENABLE true it makes exactly one bus access
(R250 to R262). -/

namespace Sys2Proof.Machine

/-- The shape of a load (R250, R251, R261, R262): `i` is the instruction itself, whose word a dispatch
error records; `ext` extends the value read. -/
def load (i : Instr) (rd rs1 : Reg) (imm : Word) (n : Width) (ext : Word → Word) (s : State) : Result :=
  if s.cfg.lsEnable then
    match memRead s.cfg s.mem s.io (effAddr s rs1 imm) n with
    | .ok v => .next ((s.afterRead (effAddr s rs1 imm) n).retire rd (ext v))
    | .error f => .next (s.raise (stopOf .load f))
  else .next (s.raise (.dispatchError (encode i)))

/-- The shape of a store (R250, R251, R261, R262): the low bytes of x[rs2] are stored, no register is
written. -/
def store (i : Instr) (rs2 rs1 : Reg) (imm : Word) (n : Width) (s : State) : Result :=
  if s.cfg.lsEnable then
    match memWrite s.cfg s.mem s.io (effAddr s rs1 imm) n (s.x rs2) with
    | .done m => .next (s.afterWrite m (effAddr s rs1 imm) n (s.x rs2)).advance
    | .failed f m => .next ((s.withMem m).raise (stopOf .store f))
  else .next (s.raise (.dispatchError (encode i)))

/-- R252. -/
def execLb (rd rs1 : Reg) (imm : Word) (s : State) : Result :=
  load (.lb rd rs1 imm) rd rs1 imm .one (sext 8) s

/-- R253. -/
def execLh (rd rs1 : Reg) (imm : Word) (s : State) : Result :=
  load (.lh rd rs1 imm) rd rs1 imm .two (sext 16) s

/-- R254. -/
def execLw (rd rs1 : Reg) (imm : Word) (s : State) : Result :=
  load (.lw rd rs1 imm) rd rs1 imm .four (sext 32) s

/-- R255. -/
def execLbu (rd rs1 : Reg) (imm : Word) (s : State) : Result :=
  load (.lbu rd rs1 imm) rd rs1 imm .one (zext 8) s

/-- R256. -/
def execLhu (rd rs1 : Reg) (imm : Word) (s : State) : Result :=
  load (.lhu rd rs1 imm) rd rs1 imm .two (zext 16) s

/-- R257. -/
def execSb (rs2 rs1 : Reg) (imm : Word) (s : State) : Result :=
  store (.sb rs2 rs1 imm) rs2 rs1 imm .one s

/-- R258. -/
def execSh (rs2 rs1 : Reg) (imm : Word) (s : State) : Result :=
  store (.sh rs2 rs1 imm) rs2 rs1 imm .two s

/-- R259. -/
def execSw (rs2 rs1 : Reg) (imm : Word) (s : State) : Result :=
  store (.sw rs2 rs1 imm) rs2 rs1 imm .four s

end Sys2Proof.Machine
end

