-- ==== Sys2Proof/Machine/Op.lean ====
section
/-! DEFINITION. Register-register instructions (42_op.md, R190 to R202): x[rd] <- ALU(op, x[rs1], x[rs2]),
pc <- pc + 4, nothing else. -/

namespace Sys2Proof.Machine

/-- The shape of the family (R200). Both sources are read before x[rd] is written (R136). -/
def aluReg (op : AluOp) (rd rs1 rs2 : Reg) (s : State) : Result :=
  .next (s.retire rd (alu op (s.x rs1) (s.x rs2)))

/-- R190. -/
def execAdd (rd rs1 rs2 : Reg) (s : State) : Result := aluReg .add rd rs1 rs2 s

/-- R191. -/
def execSub (rd rs1 rs2 : Reg) (s : State) : Result := aluReg .sub rd rs1 rs2 s

/-- R192. -/
def execSll (rd rs1 rs2 : Reg) (s : State) : Result := aluReg .sll rd rs1 rs2 s

/-- R193. -/
def execSlt (rd rs1 rs2 : Reg) (s : State) : Result := aluReg .slt rd rs1 rs2 s

/-- R194. -/
def execSltu (rd rs1 rs2 : Reg) (s : State) : Result := aluReg .sltu rd rs1 rs2 s

/-- R195. -/
def execXor (rd rs1 rs2 : Reg) (s : State) : Result := aluReg .xor rd rs1 rs2 s

/-- R196. -/
def execSrl (rd rs1 rs2 : Reg) (s : State) : Result := aluReg .srl rd rs1 rs2 s

/-- R197. -/
def execSra (rd rs1 rs2 : Reg) (s : State) : Result := aluReg .sra rd rs1 rs2 s

/-- R198. -/
def execOr (rd rs1 rs2 : Reg) (s : State) : Result := aluReg .or rd rs1 rs2 s

/-- R199. -/
def execAnd (rd rs1 rs2 : Reg) (s : State) : Result := aluReg .and rd rs1 rs2 s

end Sys2Proof.Machine
end

