-- ==== Sys2Proof/Machine/OpImm.lean ====
section
/-! DEFINITION. Register-immediate instructions (41_op_imm.md, R170 to R179): x[rd] <- ALU(op, x[rs1], b),
pc <- pc + 4, nothing else. -/

namespace Sys2Proof.Machine

/-- The shape of the family (R179). -/
def aluImm (op : AluOp) (rd rs1 : Reg) (b : Word) (s : State) : Result :=
  .next (s.retire rd (alu op (s.x rs1) b))

/-- R170. -/
def execAddi (rd rs1 : Reg) (imm : Word) (s : State) : Result := aluImm .add rd rs1 imm s

/-- R171. -/
def execSlti (rd rs1 : Reg) (imm : Word) (s : State) : Result := aluImm .slt rd rs1 imm s

/-- R172. -/
def execSltiu (rd rs1 : Reg) (imm : Word) (s : State) : Result := aluImm .sltu rd rs1 imm s

/-- R173. -/
def execXori (rd rs1 : Reg) (imm : Word) (s : State) : Result := aluImm .xor rd rs1 imm s

/-- R174. -/
def execOri (rd rs1 : Reg) (imm : Word) (s : State) : Result := aluImm .or rd rs1 imm s

/-- R175. -/
def execAndi (rd rs1 : Reg) (imm : Word) (s : State) : Result := aluImm .and rd rs1 imm s

/-- R176: the ALU gets the whole immediate and uses imm[4:0] (R146). -/
def execSlli (rd rs1 : Reg) (imm : Word) (s : State) : Result := aluImm .sll rd rs1 imm s

/-- R177. -/
def execSrli (rd rs1 : Reg) (shamt : BitVec 5) (s : State) : Result :=
  aluImm .srl rd rs1 (shamtOperand shamt) s

/-- R178. -/
def execSrai (rd rs1 : Reg) (shamt : BitVec 5) (s : State) : Result :=
  aluImm .sra rd rs1 (shamtOperand shamt) s

end Sys2Proof.Machine
end

