-- ==== Sys2Proof/Machine/System.lean ====
section
/-! DEFINITION. SYSTEM and MISC-MEM instructions (47_system_fence.md): the effect the spec gives each is the
stop `DispatchError`, with its word recorded and the registers, the pc and the memory kept (R272, R281). -/

namespace Sys2Proof.Machine

/-- R270: `raise DispatchError(0x00000073)`. -/
def execEcall (s : State) : Result := .next (s.raise (.dispatchError 0x00000073#32))

/-- R271: `raise DispatchError(0x00100073)`. -/
def execEbreak (s : State) : Result := .next (s.raise (.dispatchError 0x00100073#32))

/-- R274: `raise DispatchError(w)`, w the word of this FENCE. -/
def execFence (rd rs1 : Reg) (imm : Word) (s : State) : Result :=
  .next (s.raise (.dispatchError (encode (.fence rd rs1 imm))))

end Sys2Proof.Machine
end

