-- ==== Sys2Proof/Machine/UpperImm.lean ====
section
/-! DEFINITION. Upper-immediate instructions (43_upper_imm.md, R210 to R212). -/

namespace Sys2Proof.Machine

/-- R210. -/
def execLui (rd : Reg) (imm : Word) (s : State) : Result := .next (s.retire rd imm)

/-- R211: the pc is the address of this AUIPC. -/
def execAuipc (rd : Reg) (imm : Word) (s : State) : Result := .next (s.retire rd (pcTarget s imm))

end Sys2Proof.Machine
end

