-- ==== Sys2Proof/Machine/Cycle.lean ====
section
/-! DEFINITION. The fetch-decode-execute cycle of a running core (R130 to R137). -/

namespace Sys2Proof.Machine

/-- One cycle: the in-image test, fetch, decode, execute, in this order, the first test to fail being the
stop (R130, R131, R132, R133, R134, R291). The fetch is a bus read, so what follows it starts from `afterFetch`,
which is the same state but where a peripheral answered (R66). -/
def cycle (s : State) : Result :=
  if inImage s.cfg s.pc then
    match memRead s.cfg s.mem s.io s.pc .four with
    | .error f => .next (s.raise (stopOf .fetch f))
    | .ok w =>
      match decodeWord s.cfg.strictDecode w with
      | .error .unrecognisedOpcode => .next (s.afterFetch.raise (.decodeError w))
      | .error .noExecutePath => .next (s.afterFetch.raise (.dispatchError w))
      | .ok i => exec i s.afterFetch
  else .next (s.raise (.pcOut s.pc))

end Sys2Proof.Machine
end

