-- ==== Sys2Proof/Machine/Step.lean ====
section
/-! DEFINITION. The step (R130), and placing an instruction where it fetches. -/

namespace Sys2Proof.Machine

/-- One step: from a stopped state none is possible (R289), a running core runs one cycle. -/
def step (s : State) : Host.Outcome State Fault Refusal :=
  match s.status with
  | .stopped why => .fault (.halted why)
  | .running => cycle s

/-- The state with the word that spec/opcode_table.json numbers `w` where the next step fetches (log 6). -/
def State.withFetchWord (s : State) (nbits w : Nat) : State := placeWord s (tableWord nbits w)

end Sys2Proof.Machine
end

