-- ==== Sys2Proof/Machine/Reset.lean ====
section
/-! DEFINITION. Reset is construction (R310 to R313): the state after reset for any parameters, image and
initial values. `State.reset` is the case with the defaults and no image. -/

namespace Sys2Proof.Machine

/-- What the environment presents while reset is asserted, beside the parameters of the step (R11, R15
I-1). -/
structure Boot where
  /-- `IMAGE` (R10). -/
  image : List Byte
  /-- `RAM_FILL`, by bus address (R11, R62). -/
  ramFill : Memory
  /-- `RESET_PC` (R29). -/
  resetPc : Word
  /-- `INIT_X2` (R24). -/
  initX2 : Word
  /-- `INIT_REGS`; entries 0 and 2 are not used (R25). -/
  initRegs : Vector Word 32
deriving DecidableEq, Repr

/-- The defaults of R11 for an image: RESET_PC = IMAGE_BASE, INIT_X2 = RAM_BASE + RAM_SIZE mod 2^32,
INIT_REGS = 0. RAM_FILL has no default in the spec: 0 (log 5). -/
def Boot.ofImage (c : Config) (image : List Byte) : Boot where
  image    := image
  ramFill  := []
  resetPc  := c.imageBase
  initX2   := c.ramBase + BitVec.ofNat 32 c.ramSize
  initRegs := Vector.replicate 32 0#32

/-- The state after reset (R311, R312): RAM receives the image at offset 0 and RAM_FILL elsewhere, the
registers and the pc their initial values, the status `running`; the CPU has made no bus access. IMAGE_LEN is the image's length (R10). -/
def powerOn (c : Config) (b : Boot) : State where
  regs   := (b.initRegs.set 0 0#32).set 2 b.initX2
  pc     := b.resetPc
  status := .running
  mem    := b.ramFill.writeBytes c.imageBase.toNat b.image
  io     := []
  cfg    := { c with imageLen := b.image.length }

end Sys2Proof.Machine
end

