-- ==== Sys2Proof/Safety.lean ====
section
/-! DEFINITION. The terms claims are stated in: how a run ends, the invariant of the machine, what a step
changes and keeps, and the spec's own lists of words. -/

namespace Sys2Proof.Machine

/-! ### How a run ends (R318) -/

/-- The run ended well: the cause is `PcOut`, the normal end (R288, R318). -/
def State.endedNormally (s : State) : Prop := ∃ pc, s.status = .stopped (.pcOut pc)

/-- The run ended in one of the four error causes, never a successful end (R280, R318). -/
def State.endedInError (s : State) : Prop :=
  ∃ why, s.status = .stopped why ∧ ∀ pc, why ≠ .pcOut pc

/-- A safe step: it has a next state, and that state is not stopped by an error. -/
def safeStep (s : State) : Prop := ∃ t, step s = .next t ∧ ¬ t.endedInError

/-! ### The invariant -/

/-- What holds after reset and every step keeps: the parameters are well formed (R313), memory is in its
canonical form with every cell inside RAM's buffer (R62), and the slot of x0 holds 0 (R22). -/
def State.Inv (s : State) : Prop :=
  configWf s.cfg = true ∧ Memory.wf s.mem = true ∧
  (∀ c ∈ s.mem, inRam s.cfg c.1 = true) ∧ s.regs[0] = 0

/-! ### What changes and what is kept -/

/-- Every byte of memory reads as before. -/
def SameMemory (s t : State) : Prop := ∀ a, Memory.read t.mem a = Memory.read s.mem a

/-- `t` is `s` with `v` in x[rd] (discarded where rd is x0, R23) and the pc at `pc'`. Every other register,
every byte of memory, the other devices, the status and the parameters are kept. -/
def WroteReg (s t : State) (rd : Reg) (v pc' : Word) : Prop :=
  (∀ r, t.x r = if r = rd ∧ r ≠ 0 then v else s.x r) ∧
  t.pc = pc' ∧ SameMemory s t ∧ t.io = s.io ∧ t.status = s.status ∧ t.cfg = s.cfg

/-- `t` is `s` with the pc at `pc'`; nothing else is changed. -/
def WrotePc (s t : State) (pc' : Word) : Prop :=
  (∀ r, t.x r = s.x r) ∧ t.pc = pc' ∧ SameMemory s t ∧ t.io = s.io ∧ t.status = s.status ∧ t.cfg = s.cfg

/-- `t` is `s` with the low `n` bytes of `v` stored from byte address `lo` upward, the least significant
first, and the pc advanced by 4. Every byte outside [lo, lo + n), every register and the other devices are kept. -/
def StoredBytes (s t : State) (lo n : Nat) (v : Word) : Prop :=
  (∀ r, t.x r = s.x r) ∧ t.pc = s.pc + 4 ∧
  (∀ a, Memory.read t.mem a =
    if lo ≤ a ∧ a < lo + n then BitVec.ofNat 8 (v.toNat / 2 ^ (8 * (a - lo))) else Memory.read s.mem a) ∧
  t.io = s.io ∧ t.status = s.status ∧ t.cfg = s.cfg

/-- `t` is `s` stopped with this cause: the status is written, every register, the pc, every byte of memory,
the other devices and the parameters are kept (R281, R282). -/
def StoppedPrecisely (s t : State) (why : Stop) : Prop :=
  t.status = .stopped why ∧ (∀ r, t.x r = s.x r) ∧ t.pc = s.pc ∧ SameMemory s t ∧ t.io = s.io ∧
  t.cfg = s.cfg

/-- How a load that reads `n` bytes at `addr` from peripheral `id` ends: with the value that the peripheral answers, cut
to n bytes and extended by `ext`, in x[rd], the access recorded and the pc advanced; or stopped precisely, if the
peripheral fails. Both ends are a next state `t` of `exec`. -/
def LoadsFromPeripheral (s : State) (i : Instr) (rd : Reg) (id : Nat) (addr : Word) (n : Width)
    (ext : Word → Word) : Prop :=
  ∃ t, exec i s = .next t ∧
    match Config.peripheralRead id s.io addr n.bytes with
    | .ok v => WroteReg { s with io := .read id addr n.bytes :: s.io } t rd (ext v) (s.pc + 4)
    | .error a => StoppedPrecisely s t (.deviceFault a)

/-- How a store of the low `n` bytes of `v` at `addr` to peripheral `id` ends: completed, with the access recorded and the
pc advanced and RAM and the registers kept; or stopped precisely, if the peripheral fails. -/
def StoresToPeripheral (s : State) (i : Instr) (id : Nat) (addr : Word) (n : Width) (v : Word) : Prop :=
  ∃ t, exec i s = .next t ∧
    match Config.peripheralWrite id s.io addr n.bytes (BitVec.ofNat 32 (v.toNat % 2 ^ (8 * n.bytes))) with
    | .ok _ => WrotePc
        { s with
          io := .write id addr n.bytes (BitVec.ofNat 32 (v.toNat % 2 ^ (8 * n.bytes))) :: s.io } t (s.pc + 4)
    | .error a => StoppedPrecisely s t (.deviceFault a)

/-! ### Fetch and access, as hypotheses -/

/-- The core is running, the pc is in the image, and the fetch at the pc gives the word `w` (R130). -/
def FetchedWord (s : State) (w : Word) : Prop :=
  s.status = .running ∧ inImage s.cfg s.pc = true ∧ memRead s.cfg s.mem s.io s.pc .four = .ok w

/-- The access belongs to RAM and every byte of it lies in RAM's buffer (R57, R63). -/
def RamAccess (s : State) (addr : Word) (n : Width) : Prop :=
  (∃ d, findDevice s.cfg.devices addr n = some d ∧ d.kind = .ram) ∧
  ∀ k, k < n.bytes → inRam s.cfg (addr.toNat + k) = true

/-! ### Lists the spec writes out -/

/-- The opcode bits 6:0 and the funct3 bits 14:12 of a word. -/
def HasOpF3 (w : Word) (op : BitVec 7) (f3 : BitVec 3) : Prop := field w 0 7 = op ∧ field w 12 3 = f3

/-- The eleven recognised opcodes as R103 prints them, in its order. -/
def recognisedOpcodes : List (BitVec 7) :=
  [0b0110011, 0b0010011, 0b0000011, 0b1100111, 0b1110011, 0b0001111, 0b0100011, 0b1100011, 0b0110111,
   0b0010111, 0b1101111]

/-- The words of R113, (a) to (g): recognised opcode, no execute path, under LS_ENABLE = `ls` and
STRICT_DECODE = `strict`. -/
def noPathWord (ls strict : Bool) (w : Word) : Prop :=
  let op := field w 0 7
  let f3 := field w 12 3
  let f7 := field w 25 7
  (op = 0b0010011#7 ∧ f3 = 0b101#3 ∧ f7 ≠ 0b0000000#7 ∧ f7 ≠ 0b0100000#7) ∨
  (op = 0b0110011#7 ∧ (f3 = 0b000#3 ∨ f3 = 0b101#3) ∧ f7 ≠ 0b0000000#7 ∧ f7 ≠ 0b0100000#7) ∨
  (op = 0b1100011#7 ∧ (f3 = 0b010#3 ∨ f3 = 0b011#3)) ∨
  (ls = false ∧ (op = 0b0000011#7 ∨ op = 0b0100011#7)) ∨
  (ls = true ∧ op = 0b0000011#7 ∧ (f3 = 0b011#3 ∨ f3 = 0b110#3 ∨ f3 = 0b111#3)) ∨
  (ls = true ∧ op = 0b0100011#7 ∧
    (f3 = 0b011#3 ∨ f3 = 0b100#3 ∨ f3 = 0b101#3 ∨ f3 = 0b110#3 ∨ f3 = 0b111#3)) ∨
  op = 0b1110011#7 ∨
  op = 0b0001111#7 ∨
  (strict = true ∧ op = 0b0010011#7 ∧ f3 = 0b001#3 ∧ f7 ≠ 0b0000000#7) ∨
  (strict = true ∧ op = 0b0110011#7 ∧ f3 ≠ 0b000#3 ∧ f3 ≠ 0b101#3 ∧ f7 ≠ 0b0000000#7) ∨
  (strict = true ∧ op = 0b1100111#7 ∧ f3 ≠ 0b000#3)

/-- The register an instruction names as its destination, if it has one (R26). -/
def destOf : Instr → Option Reg
  | .addi rd _ _ | .slti rd _ _ | .sltiu rd _ _ | .xori rd _ _ | .ori rd _ _ | .andi rd _ _
  | .slli rd _ _ | .srli rd _ _ | .srai rd _ _ => some rd
  | .add rd _ _ | .sub rd _ _ | .sll rd _ _ _ | .slt rd _ _ _ | .sltu rd _ _ _ | .xor rd _ _ _
  | .srl rd _ _ | .sra rd _ _ | .or rd _ _ _ | .and rd _ _ _ => some rd
  | .lui rd _ | .auipc rd _ | .jal rd _ | .jalr rd _ _ _ => some rd
  | .lb rd _ _ | .lh rd _ _ | .lw rd _ _ | .lbu rd _ _ | .lhu rd _ _ => some rd
  | .beq _ _ _ | .bne _ _ _ | .blt _ _ _ | .bge _ _ _ | .bltu _ _ _ | .bgeu _ _ _ => none
  | .sb _ _ _ | .sh _ _ _ | .sw _ _ _ => none
  | .ecall | .ebreak | .fence _ _ _ => none

/-- The eight instructions that may put a target in the pc (R28). -/
def transfersControl : Instr → Bool
  | .jal _ _ | .jalr _ _ _ _ => true
  | .beq _ _ _ | .bne _ _ _ | .blt _ _ _ | .bge _ _ _ | .bltu _ _ _ | .bgeu _ _ _ => true
  | .addi _ _ _ | .slti _ _ _ | .sltiu _ _ _ | .xori _ _ _ | .ori _ _ _ | .andi _ _ _
  | .slli _ _ _ | .srli _ _ _ | .srai _ _ _ => false
  | .add _ _ _ | .sub _ _ _ | .sll _ _ _ _ | .slt _ _ _ _ | .sltu _ _ _ _ | .xor _ _ _ _
  | .srl _ _ _ | .sra _ _ _ | .or _ _ _ _ | .and _ _ _ _ => false
  | .lui _ _ | .auipc _ _ => false
  | .lb _ _ _ | .lh _ _ _ | .lw _ _ _ | .lbu _ _ _ | .lhu _ _ _ => false
  | .sb _ _ _ | .sh _ _ _ | .sw _ _ _ => false
  | .ecall | .ebreak | .fence _ _ _ => false

/-- The eight instructions that make a data access (R69). -/
def accessesData : Instr → Bool
  | .lb _ _ _ | .lh _ _ _ | .lw _ _ _ | .lbu _ _ _ | .lhu _ _ _ => true
  | .sb _ _ _ | .sh _ _ _ | .sw _ _ _ => true
  | .addi _ _ _ | .slti _ _ _ | .sltiu _ _ _ | .xori _ _ _ | .ori _ _ _ | .andi _ _ _
  | .slli _ _ _ | .srli _ _ _ | .srai _ _ _ => false
  | .add _ _ _ | .sub _ _ _ | .sll _ _ _ _ | .slt _ _ _ _ | .sltu _ _ _ _ | .xor _ _ _ _
  | .srl _ _ _ | .sra _ _ _ | .or _ _ _ _ | .and _ _ _ _ => false
  | .lui _ _ | .auipc _ _ => false
  | .jal _ _ | .jalr _ _ _ _ => false
  | .beq _ _ _ | .bne _ _ _ | .blt _ _ _ | .bge _ _ _ | .bltu _ _ _ | .bgeu _ _ _ => false
  | .ecall | .ebreak | .fence _ _ _ => false

/-- The three instructions that store (R257 to R259). -/
def storesBytes : Instr → Bool
  | .sb _ _ _ | .sh _ _ _ | .sw _ _ _ => true
  | .addi _ _ _ | .slti _ _ _ | .sltiu _ _ _ | .xori _ _ _ | .ori _ _ _ | .andi _ _ _
  | .slli _ _ _ | .srli _ _ _ | .srai _ _ _ => false
  | .add _ _ _ | .sub _ _ _ | .sll _ _ _ _ | .slt _ _ _ _ | .sltu _ _ _ _ | .xor _ _ _ _
  | .srl _ _ _ | .sra _ _ _ | .or _ _ _ _ | .and _ _ _ _ => false
  | .lui _ _ | .auipc _ _ => false
  | .jal _ _ | .jalr _ _ _ _ => false
  | .beq _ _ _ | .bne _ _ _ | .blt _ _ _ | .bge _ _ _ | .bltu _ _ _ | .bgeu _ _ _ => false
  | .lb _ _ _ | .lh _ _ _ | .lw _ _ _ | .lbu _ _ _ | .lhu _ _ _ => false
  | .ecall | .ebreak | .fence _ _ _ => false

end Sys2Proof.Machine
end

