-- ==== Sys2Proof/Certificates/Slice0/Obligations.lean ====
section
/-! DEFINITION. The statements for the provers. Each docstring names the rule of spec/ it formalises; where a
clause rests on a decision of the spec (92_eei_decisions.md), on its general-knowledge passages
(93_implementation_defined.md part 2) or on a choice of this model (notes/assumptions), it says so.
Throughout, the numeric opcodes of OP, LOAD, STORE, SYSTEM and MISC-MEM, the funct3 values but SLLI's and
SRLI/SRAI's, and the funct7 values are the spec's general-knowledge passages G1 to G3. -/

open Sys2Proof Sys2Proof.Machine

/-! ### Register-immediate instructions -/

/-- R170. ADDI: its words (opcode 0010011, funct3 000), and its result x[rs1] + imm modulo 2^32. Nothing but
x[rd] and the pc changes. -/
def Obligations.AddiAddsImmediate : Prop :=
  (∀ (strict : Bool) (w : Word), HasOpF3 w 0b0010011 0b000 →
    decodeWord strict w = .ok (.addi (field w 7 5) (field w 15 5) ((field w 20 12).signExtend 32))) ∧
  (∀ (rd rs1 : Reg) (imm : Word) (s : State), ∃ t, exec (.addi rd rs1 imm) s = .next t ∧
    WroteReg s t rd (BitVec.ofNat 32 ((s.x rs1).toNat + imm.toNat)) (s.pc + 4))

/-- R171, R172. SLTI compares signed numbers, SLTIU the same sign-extended immediate as unsigned. -/
def Obligations.SltiSltiuCompareImmediate : Prop :=
  (∀ (strict : Bool) (w : Word), HasOpF3 w 0b0010011 0b010 →
    decodeWord strict w = .ok (.slti (field w 7 5) (field w 15 5) ((field w 20 12).signExtend 32))) ∧
  (∀ (strict : Bool) (w : Word), HasOpF3 w 0b0010011 0b011 →
    decodeWord strict w = .ok (.sltiu (field w 7 5) (field w 15 5) ((field w 20 12).signExtend 32))) ∧
  (∀ (rd rs1 : Reg) (imm : Word) (s : State), ∃ t, exec (.slti rd rs1 imm) s = .next t ∧
    WroteReg s t rd (if (s.x rs1).toInt < imm.toInt then 1 else 0) (s.pc + 4)) ∧
  (∀ (rd rs1 : Reg) (imm : Word) (s : State), ∃ t, exec (.sltiu rd rs1 imm) s = .next t ∧
    WroteReg s t rd (if (s.x rs1).toNat < imm.toNat then 1 else 0) (s.pc + 4))

/-- R173, R174, R175. XORI, ORI, ANDI: the bitwise operation of x[rs1] and the sign-extended immediate. -/
def Obligations.XoriOriAndiBitwise : Prop :=
  (∀ (strict : Bool) (w : Word), HasOpF3 w 0b0010011 0b100 →
    decodeWord strict w = .ok (.xori (field w 7 5) (field w 15 5) ((field w 20 12).signExtend 32))) ∧
  (∀ (strict : Bool) (w : Word), HasOpF3 w 0b0010011 0b110 →
    decodeWord strict w = .ok (.ori (field w 7 5) (field w 15 5) ((field w 20 12).signExtend 32))) ∧
  (∀ (strict : Bool) (w : Word), HasOpF3 w 0b0010011 0b111 →
    decodeWord strict w = .ok (.andi (field w 7 5) (field w 15 5) ((field w 20 12).signExtend 32))) ∧
  (∀ (rd rs1 : Reg) (imm : Word) (s : State),
    (∃ t, exec (.xori rd rs1 imm) s = .next t ∧ WroteReg s t rd (s.x rs1 ^^^ imm) (s.pc + 4)) ∧
    (∃ t, exec (.ori rd rs1 imm) s = .next t ∧ WroteReg s t rd (s.x rs1 ||| imm) (s.pc + 4)) ∧
    (∃ t, exec (.andi rd rs1 imm) s = .next t ∧ WroteReg s t rd (s.x rs1 &&& imm) (s.pc + 4)))

/-- SRLI and SRAI (R177, R178) shift right by w[24:20], SRAI keeping the sign; SLLI (R176) left by imm[4:0].
That an SLLI word may hold anything in bits 31:25 when STRICT_DECODE is false is R112, the spec's decision D15
(log 12); its encoding in R176 prints 0000000 there. What such a word does when STRICT_DECODE is true is in
DispatchErrorExactlyListedWords. -/
def Obligations.ShiftImmediates : Prop :=
  (∀ (strict : Bool) (w : Word), HasOpF3 w 0b0010011 0b001 → (strict = false ∨ field w 25 7 = 0) →
    decodeWord strict w = .ok (.slli (field w 7 5) (field w 15 5) ((field w 20 12).signExtend 32))) ∧
  (∀ (strict : Bool) (w : Word), HasOpF3 w 0b0010011 0b101 →
    (field w 25 7 = 0b0000000 →
      decodeWord strict w = .ok (.srli (field w 7 5) (field w 15 5) (field w 20 5))) ∧
    (field w 25 7 = 0b0100000 →
      decodeWord strict w = .ok (.srai (field w 7 5) (field w 15 5) (field w 20 5)))) ∧
  (∀ (rd rs1 : Reg) (imm : Word) (s : State), ∃ t, exec (.slli rd rs1 imm) s = .next t ∧
    WroteReg s t rd (BitVec.ofNat 32 ((s.x rs1).toNat * 2 ^ (imm.toNat % 32))) (s.pc + 4)) ∧
  (∀ (rd rs1 : Reg) (sh : BitVec 5) (s : State), ∃ t, exec (.srli rd rs1 sh) s = .next t ∧
    WroteReg s t rd (BitVec.ofNat 32 ((s.x rs1).toNat / 2 ^ sh.toNat)) (s.pc + 4)) ∧
  (∀ (rd rs1 : Reg) (sh : BitVec 5) (s : State), ∃ t, exec (.srai rd rs1 sh) s = .next t ∧
    WroteReg s t rd (BitVec.ofInt 32 ((s.x rs1).toInt / 2 ^ sh.toNat)) (s.pc + 4))

/-! ### Register-register instructions -/

/-- R190, R191. ADD and SUB: their words, and the sum and the difference modulo 2^32. -/
def Obligations.AddSubWrap : Prop :=
  (∀ (strict : Bool) (w : Word), HasOpF3 w 0b0110011 0b000 →
    (field w 25 7 = 0b0000000 →
      decodeWord strict w = .ok (.add (field w 7 5) (field w 15 5) (field w 20 5))) ∧
    (field w 25 7 = 0b0100000 →
      decodeWord strict w = .ok (.sub (field w 7 5) (field w 15 5) (field w 20 5)))) ∧
  (∀ (rd rs1 rs2 : Reg) (s : State),
    (∃ t, exec (.add rd rs1 rs2) s = .next t ∧
      WroteReg s t rd (BitVec.ofNat 32 ((s.x rs1).toNat + (s.x rs2).toNat)) (s.pc + 4)) ∧
    (∃ t, exec (.sub rd rs1 rs2) s = .next t ∧
      WroteReg s t rd (BitVec.ofInt 32 ((s.x rs1).toInt - (s.x rs2).toInt)) (s.pc + 4)))

/-- SLL, SRL (R192, R196) and SRA (R197) shift by the low five bits of x[rs2], SRA keeping the sign. Two clauses
rest on decisions of the spec: that an SLL word may hold any funct7 when STRICT_DECODE is false is R112 and R202,
decision D15 (log 12), where the encoding in R192 prints 0000000; that SRA's amount is masked too is R146,
decision D19 (log 22). -/
def Obligations.ShiftsByLowFiveBits : Prop :=
  (∀ (strict : Bool) (w : Word), HasOpF3 w 0b0110011 0b001 → (strict = false ∨ field w 25 7 = 0) →
    decodeWord strict w =
      .ok (.sll (field w 7 5) (field w 15 5) (field w 20 5) (field w 25 7))) ∧
  (∀ (strict : Bool) (w : Word), HasOpF3 w 0b0110011 0b101 →
    (field w 25 7 = 0b0000000 →
      decodeWord strict w = .ok (.srl (field w 7 5) (field w 15 5) (field w 20 5))) ∧
    (field w 25 7 = 0b0100000 →
      decodeWord strict w = .ok (.sra (field w 7 5) (field w 15 5) (field w 20 5)))) ∧
  (∀ (rd rs1 rs2 : Reg) (f : BitVec 7) (s : State), ∃ t, exec (.sll rd rs1 rs2 f) s = .next t ∧
    WroteReg s t rd (BitVec.ofNat 32 ((s.x rs1).toNat * 2 ^ ((s.x rs2).toNat % 32))) (s.pc + 4)) ∧
  (∀ (rd rs1 rs2 : Reg) (s : State), ∃ t, exec (.srl rd rs1 rs2) s = .next t ∧
    WroteReg s t rd (BitVec.ofNat 32 ((s.x rs1).toNat / 2 ^ ((s.x rs2).toNat % 32))) (s.pc + 4)) ∧
  (∀ (rd rs1 rs2 : Reg) (s : State), ∃ t, exec (.sra rd rs1 rs2) s = .next t ∧
    WroteReg s t rd (BitVec.ofInt 32 ((s.x rs1).toInt / 2 ^ ((s.x rs2).toNat % 32))) (s.pc + 4))

/-- SLT (R193) compares signed numbers, SLTU (R194) unsigned ones. That their words may hold any funct7 when
STRICT_DECODE is false is R112 and R202, the spec's decision D15 (log 12); the encodings in R193 and R194 print
0000000. -/
def Obligations.SltSltuCompare : Prop :=
  (∀ (strict : Bool) (w : Word), HasOpF3 w 0b0110011 0b010 → (strict = false ∨ field w 25 7 = 0) →
    decodeWord strict w =
      .ok (.slt (field w 7 5) (field w 15 5) (field w 20 5) (field w 25 7))) ∧
  (∀ (strict : Bool) (w : Word), HasOpF3 w 0b0110011 0b011 → (strict = false ∨ field w 25 7 = 0) →
    decodeWord strict w =
      .ok (.sltu (field w 7 5) (field w 15 5) (field w 20 5) (field w 25 7))) ∧
  (∀ (rd rs1 rs2 : Reg) (f : BitVec 7) (s : State),
    (∃ t, exec (.slt rd rs1 rs2 f) s = .next t ∧
      WroteReg s t rd (if (s.x rs1).toInt < (s.x rs2).toInt then 1 else 0) (s.pc + 4)) ∧
    (∃ t, exec (.sltu rd rs1 rs2 f) s = .next t ∧
      WroteReg s t rd (if (s.x rs1).toNat < (s.x rs2).toNat then 1 else 0) (s.pc + 4)))

/-- XOR (R195), OR (R198), AND (R199): the bitwise operation of the two source registers. That their words may
hold any funct7 when STRICT_DECODE is false is R112 and R202, the spec's decision D15 (log 12); the encodings in
R195, R198 and R199 print 0000000. -/
def Obligations.XorOrAndBitwise : Prop :=
  (∀ (strict : Bool) (w : Word), HasOpF3 w 0b0110011 0b100 → (strict = false ∨ field w 25 7 = 0) →
    decodeWord strict w =
      .ok (.xor (field w 7 5) (field w 15 5) (field w 20 5) (field w 25 7))) ∧
  (∀ (strict : Bool) (w : Word), HasOpF3 w 0b0110011 0b110 → (strict = false ∨ field w 25 7 = 0) →
    decodeWord strict w =
      .ok (.or (field w 7 5) (field w 15 5) (field w 20 5) (field w 25 7))) ∧
  (∀ (strict : Bool) (w : Word), HasOpF3 w 0b0110011 0b111 → (strict = false ∨ field w 25 7 = 0) →
    decodeWord strict w =
      .ok (.and (field w 7 5) (field w 15 5) (field w 20 5) (field w 25 7))) ∧
  (∀ (rd rs1 rs2 : Reg) (f : BitVec 7) (s : State),
    (∃ t, exec (.xor rd rs1 rs2 f) s = .next t ∧
      WroteReg s t rd (s.x rs1 ^^^ s.x rs2) (s.pc + 4)) ∧
    (∃ t, exec (.or rd rs1 rs2 f) s = .next t ∧
      WroteReg s t rd (s.x rs1 ||| s.x rs2) (s.pc + 4)) ∧
    (∃ t, exec (.and rd rs1 rs2 f) s = .next t ∧
      WroteReg s t rd (s.x rs1 &&& s.x rs2) (s.pc + 4)))

/-! ### Upper immediates and control transfer -/

/-- R210, R211. LUI writes w[31:12] with 12 zero bits below; AUIPC adds that to the pc of the AUIPC itself,
modulo 2^32. -/
def Obligations.LuiAuipcResults : Prop :=
  (∀ (strict : Bool) (w : Word),
    (field w 0 7 = 0b0110111 →
      decodeWord strict w = .ok (.lui (field w 7 5) ((field w 12 20 ++ 0#12).setWidth 32))) ∧
    (field w 0 7 = 0b0010111 →
      decodeWord strict w = .ok (.auipc (field w 7 5) ((field w 12 20 ++ 0#12).setWidth 32)))) ∧
  (∀ (rd : Reg) (imm : Word) (s : State),
    (∃ t, exec (.lui rd imm) s = .next t ∧ WroteReg s t rd imm (s.pc + 4)) ∧
    (∃ t, exec (.auipc rd imm) s = .next t ∧
      WroteReg s t rd (BitVec.ofNat 32 (s.pc.toNat + imm.toNat)) (s.pc + 4)))

/-- R220. JAL: every word with its opcode is a JAL; x[rd] gets pc + 4, the pc gets pc + imm, both modulo 2^32.
With rd = x0 the jump happens and the link value is discarded. -/
def Obligations.JalLinksAndJumps : Prop :=
  (∀ (strict : Bool) (w : Word), field w 0 7 = 0b1101111 →
    decodeWord strict w = .ok (.jal (field w 7 5)
      ((field w 31 1 ++ field w 12 8 ++ field w 20 1 ++ field w 21 10 ++ 0#1).signExtend 32))) ∧
  (∀ (rd : Reg) (imm : Word) (s : State), ∃ t, exec (.jal rd imm) s = .next t ∧
    WroteReg s t rd (BitVec.ofNat 32 (s.pc.toNat + 4)) (BitVec.ofNat 32 (s.pc.toNat + imm.toNat)))

/-- JALR (R221): the target is the OLD x[rs1] plus imm modulo 2^32 with bit 0 cleared, also where rd = rs1
(decision D9 of the spec); funct3 is examined under STRICT_DECODE alone (decision D15). -/
def Obligations.JalrLinksAndJumps : Prop :=
  (∀ (strict : Bool) (w : Word), field w 0 7 = 0b1100111 →
    (strict = false ∨ field w 12 3 = 0 →
      decodeWord strict w = .ok (.jalr (field w 7 5) (field w 15 5)
        ((field w 20 12).signExtend 32) (field w 12 3))) ∧
    (strict = true ∧ field w 12 3 ≠ 0 → decodeWord strict w = .error .noExecutePath)) ∧
  (∀ (rd rs1 : Reg) (imm : Word) (f : BitVec 3) (s : State), ∃ t,
    exec (.jalr rd rs1 imm f) s = .next t ∧
    WroteReg s t rd (BitVec.ofNat 32 (s.pc.toNat + 4))
      (BitVec.ofNat 32 (((s.x rs1).toNat + imm.toNat) % 2 ^ 32 / 2 * 2)))

/-- R231, R232. BEQ and BNE: the pc gets pc + imm when the registers are equal (unequal), else pc + 4; nothing
else changes. -/
def Obligations.BeqBneBranch : Prop :=
  (∀ (strict : Bool) (w : Word), HasOpF3 w 0b1100011 0b000 →
    decodeWord strict w = .ok (.beq (field w 15 5) (field w 20 5)
      ((field w 31 1 ++ field w 7 1 ++ field w 25 6 ++ field w 8 4 ++ 0#1).signExtend 32))) ∧
  (∀ (strict : Bool) (w : Word), HasOpF3 w 0b1100011 0b001 →
    decodeWord strict w = .ok (.bne (field w 15 5) (field w 20 5)
      ((field w 31 1 ++ field w 7 1 ++ field w 25 6 ++ field w 8 4 ++ 0#1).signExtend 32))) ∧
  (∀ (rs1 rs2 : Reg) (imm : Word) (s : State),
    (∃ t, exec (.beq rs1 rs2 imm) s = .next t ∧
      WrotePc s t (if s.x rs1 = s.x rs2 then s.pc + imm else s.pc + 4)) ∧
    (∃ t, exec (.bne rs1 rs2 imm) s = .next t ∧
      WrotePc s t (if s.x rs1 = s.x rs2 then s.pc + 4 else s.pc + imm)))

/-- R233, R234. BLT and BGE compare signed numbers. -/
def Obligations.BltBgeBranchSigned : Prop :=
  (∀ (strict : Bool) (w : Word), HasOpF3 w 0b1100011 0b100 →
    decodeWord strict w = .ok (.blt (field w 15 5) (field w 20 5)
      ((field w 31 1 ++ field w 7 1 ++ field w 25 6 ++ field w 8 4 ++ 0#1).signExtend 32))) ∧
  (∀ (strict : Bool) (w : Word), HasOpF3 w 0b1100011 0b101 →
    decodeWord strict w = .ok (.bge (field w 15 5) (field w 20 5)
      ((field w 31 1 ++ field w 7 1 ++ field w 25 6 ++ field w 8 4 ++ 0#1).signExtend 32))) ∧
  (∀ (rs1 rs2 : Reg) (imm : Word) (s : State),
    (∃ t, exec (.blt rs1 rs2 imm) s = .next t ∧
      WrotePc s t (if (s.x rs1).toInt < (s.x rs2).toInt then s.pc + imm else s.pc + 4)) ∧
    (∃ t, exec (.bge rs1 rs2 imm) s = .next t ∧
      WrotePc s t (if (s.x rs1).toInt < (s.x rs2).toInt then s.pc + 4 else s.pc + imm)))

/-- R235, R236. BLTU and BGEU compare unsigned numbers. -/
def Obligations.BltuBgeuBranchUnsigned : Prop :=
  (∀ (strict : Bool) (w : Word), HasOpF3 w 0b1100011 0b110 →
    decodeWord strict w = .ok (.bltu (field w 15 5) (field w 20 5)
      ((field w 31 1 ++ field w 7 1 ++ field w 25 6 ++ field w 8 4 ++ 0#1).signExtend 32))) ∧
  (∀ (strict : Bool) (w : Word), HasOpF3 w 0b1100011 0b111 →
    decodeWord strict w = .ok (.bgeu (field w 15 5) (field w 20 5)
      ((field w 31 1 ++ field w 7 1 ++ field w 25 6 ++ field w 8 4 ++ 0#1).signExtend 32))) ∧
  (∀ (rs1 rs2 : Reg) (imm : Word) (s : State),
    (∃ t, exec (.bltu rs1 rs2 imm) s = .next t ∧
      WrotePc s t (if (s.x rs1).toNat < (s.x rs2).toNat then s.pc + imm else s.pc + 4)) ∧
    (∃ t, exec (.bgeu rs1 rs2 imm) s = .next t ∧
      WrotePc s t (if (s.x rs1).toNat < (s.x rs2).toNat then s.pc + 4 else s.pc + imm)))

/-! ### Loads and stores

The extension under LS_ENABLE: the effective address, the funct3 assignment and the operands are the spec's
general-knowledge passages (R250, G6), so these statements are `derived`. -/

/-- LB and LBU: with LS_ENABLE true and the byte in RAM, x[rd] gets the byte at x[rs1] + imm, sign- or
zero-extended. With rd = x0 the access is made and the value discarded. -/
def Obligations.LbLbuLoadOneByte : Prop :=
  ∀ (rd rs1 : Reg) (imm : Word) (s : State), s.cfg.lsEnable = true → RamAccess s (s.x rs1 + imm) .one →
    (∃ t, exec (.lb rd rs1 imm) s = .next t ∧
      WroteReg s t rd (BitVec.ofInt 32 (Memory.read s.mem (s.x rs1 + imm).toNat).toInt) (s.pc + 4)) ∧
    (∃ t, exec (.lbu rd rs1 imm) s = .next t ∧
      WroteReg s t rd (BitVec.ofNat 32 (Memory.read s.mem (s.x rs1 + imm).toNat).toNat) (s.pc + 4))

/-- LH and LHU: two bytes, the one at the lower address the less significant, sign- or zero-extended. Any
address is accepted, odd included. -/
def Obligations.LhLhuLoadTwoBytes : Prop :=
  ∀ (rd rs1 : Reg) (imm : Word) (s : State), s.cfg.lsEnable = true → RamAccess s (s.x rs1 + imm) .two →
    (∃ t, exec (.lh rd rs1 imm) s = .next t ∧
      WroteReg s t rd
        (BitVec.ofInt 32 (Memory.read s.mem ((s.x rs1 + imm).toNat + 1) ++
          Memory.read s.mem (s.x rs1 + imm).toNat).toInt) (s.pc + 4)) ∧
    (∃ t, exec (.lhu rd rs1 imm) s = .next t ∧
      WroteReg s t rd
        (BitVec.ofNat 32 ((Memory.read s.mem (s.x rs1 + imm).toNat).toNat +
          2 ^ 8 * (Memory.read s.mem ((s.x rs1 + imm).toNat + 1)).toNat)) (s.pc + 4))

/-- LW: four bytes, little-endian, at any address. -/
def Obligations.LwLoadsFourBytes : Prop :=
  ∀ (rd rs1 : Reg) (imm : Word) (s : State), s.cfg.lsEnable = true → RamAccess s (s.x rs1 + imm) .four →
    ∃ t, exec (.lw rd rs1 imm) s = .next t ∧
      WroteReg s t rd
        (BitVec.ofNat 32 ((Memory.read s.mem (s.x rs1 + imm).toNat).toNat +
          2 ^ 8 * (Memory.read s.mem ((s.x rs1 + imm).toNat + 1)).toNat +
          2 ^ 16 * (Memory.read s.mem ((s.x rs1 + imm).toNat + 2)).toNat +
          2 ^ 24 * (Memory.read s.mem ((s.x rs1 + imm).toNat + 3)).toNat)) (s.pc + 4)

/-- SB, SH, SW: with LS_ENABLE true and the access in RAM, the low 1, 2 or 4 bytes of x[rs2] stand at the
effective address upward, every other byte of memory and every register is kept, the pc advances by 4. -/
def Obligations.StoresWriteLowBytes : Prop :=
  ∀ (rs2 rs1 : Reg) (imm : Word) (s : State), s.cfg.lsEnable = true → Memory.wf s.mem = true →
    (RamAccess s (effAddr s rs1 imm) .one → ∃ t, exec (.sb rs2 rs1 imm) s = .next t ∧
      StoredBytes s t (effAddr s rs1 imm).toNat 1 (s.x rs2)) ∧
    (RamAccess s (effAddr s rs1 imm) .two → ∃ t, exec (.sh rs2 rs1 imm) s = .next t ∧
      StoredBytes s t (effAddr s rs1 imm).toNat 2 (s.x rs2)) ∧
    (RamAccess s (effAddr s rs1 imm) .four → ∃ t, exec (.sw rs2 rs1 imm) s = .next t ∧
      StoredBytes s t (effAddr s rs1 imm).toNat 4 (s.x rs2))

/-- The loads' and the stores' words, for every setting of STRICT_DECODE (general knowledge, G2, G6). -/
def Obligations.LoadStoreWordsDecode : Prop :=
  ∀ (strict : Bool) (w : Word),
    (HasOpF3 w 0b0000011 0b000 →
      decodeWord strict w = .ok (.lb (field w 7 5) (field w 15 5) ((field w 20 12).signExtend 32))) ∧
    (HasOpF3 w 0b0000011 0b001 →
      decodeWord strict w = .ok (.lh (field w 7 5) (field w 15 5) ((field w 20 12).signExtend 32))) ∧
    (HasOpF3 w 0b0000011 0b010 →
      decodeWord strict w = .ok (.lw (field w 7 5) (field w 15 5) ((field w 20 12).signExtend 32))) ∧
    (HasOpF3 w 0b0000011 0b100 →
      decodeWord strict w = .ok (.lbu (field w 7 5) (field w 15 5) ((field w 20 12).signExtend 32))) ∧
    (HasOpF3 w 0b0000011 0b101 →
      decodeWord strict w = .ok (.lhu (field w 7 5) (field w 15 5) ((field w 20 12).signExtend 32))) ∧
    (HasOpF3 w 0b0100011 0b000 →
      decodeWord strict w =
        .ok (.sb (field w 20 5) (field w 15 5) ((field w 25 7 ++ field w 7 5).signExtend 32))) ∧
    (HasOpF3 w 0b0100011 0b001 →
      decodeWord strict w =
        .ok (.sh (field w 20 5) (field w 15 5) ((field w 25 7 ++ field w 7 5).signExtend 32))) ∧
    (HasOpF3 w 0b0100011 0b010 →
      decodeWord strict w =
        .ok (.sw (field w 20 5) (field w 15 5) ((field w 25 7 ++ field w 7 5).signExtend 32)))

/-- A load or a store whose access no device owns stops with BusError, and nothing is written, also where rd
is x0 (R261, decision D24). -/
def Obligations.UnmappedDataAccessStops : Prop :=
  ∀ (r rs1 : Reg) (imm : Word) (s : State), s.cfg.lsEnable = true →
    (findDevice s.cfg.devices (effAddr s rs1 imm) .one = none →
      (∃ t, exec (.lb r rs1 imm) s = .next t ∧
        StoppedPrecisely s t (.busError .load (effAddr s rs1 imm) 1)) ∧
      (∃ t, exec (.lbu r rs1 imm) s = .next t ∧
        StoppedPrecisely s t (.busError .load (effAddr s rs1 imm) 1)) ∧
      (∃ t, exec (.sb r rs1 imm) s = .next t ∧
        StoppedPrecisely s t (.busError .store (effAddr s rs1 imm) 1))) ∧
    (findDevice s.cfg.devices (effAddr s rs1 imm) .two = none →
      (∃ t, exec (.lh r rs1 imm) s = .next t ∧
        StoppedPrecisely s t (.busError .load (effAddr s rs1 imm) 2)) ∧
      (∃ t, exec (.lhu r rs1 imm) s = .next t ∧
        StoppedPrecisely s t (.busError .load (effAddr s rs1 imm) 2)) ∧
      (∃ t, exec (.sh r rs1 imm) s = .next t ∧
        StoppedPrecisely s t (.busError .store (effAddr s rs1 imm) 2))) ∧
    (findDevice s.cfg.devices (effAddr s rs1 imm) .four = none →
      (∃ t, exec (.lw r rs1 imm) s = .next t ∧
        StoppedPrecisely s t (.busError .load (effAddr s rs1 imm) 4)) ∧
      (∃ t, exec (.sw r rs1 imm) s = .next t ∧
        StoppedPrecisely s t (.busError .store (effAddr s rs1 imm) 4)))

/-- R251. With LS_ENABLE false (the default) every word with opcode LOAD or STORE, whatever its funct3, stops the core
with a dispatch error that records the fetched word; no register is written, the instruction makes no bus access,
memory is kept, the pc stays. (`afterFetch` is the state once the fetch is made: the same state, but where a
peripheral answered the fetch.) -/
def Obligations.LoadsStoresDisabledStop : Prop :=
  ∀ (s : State) (w : Word), FetchedWord s w → s.cfg.lsEnable = false →
    (field w 0 7 = 0b0000011 ∨ field w 0 7 = 0b0100011) →
    ∃ t, step s = .next t ∧ StoppedPrecisely s.afterFetch t (.dispatchError w)

/-! ### SYSTEM and MISC-MEM -/

/-- R272. Every word with opcode SYSTEM stops the core with a dispatch error that records it, whatever its
funct3, rs1, rd and immediate, in every setting of the parameters. -/
def Obligations.SystemWordsStop : Prop :=
  ∀ (s : State) (w : Word), FetchedWord s w → field w 0 7 = 0b1110011 →
    ∃ t, step s = .next t ∧ StoppedPrecisely s.afterFetch t (.dispatchError w)

/-- ECALL, EBREAK (R270, R271; encodings from general knowledge, G7) and FENCE: the effect of each is the stop.
That FENCE's cause is DispatchError and not DecodeError is decision D13 of the spec. -/
def Obligations.EcallEbreakFenceStop : Prop :=
  (∀ strict, decodeWord strict 0x00000073#32 = .ok .ecall) ∧
  (∀ strict, decodeWord strict 0x00100073#32 = .ok .ebreak) ∧
  (∀ (strict : Bool) (w : Word), HasOpF3 w 0b0001111 0b000 →
    decodeWord strict w = .ok (.fence (field w 7 5) (field w 15 5) ((field w 20 12).signExtend 32))) ∧
  (∀ s : State, ∃ t, exec .ecall s = .next t ∧ StoppedPrecisely s t (.dispatchError 0x00000073#32)) ∧
  (∀ s : State, ∃ t, exec .ebreak s = .next t ∧ StoppedPrecisely s t (.dispatchError 0x00100073#32)) ∧
  (∀ (rd rs1 : Reg) (imm : Word) (s : State), ∃ t, exec (.fence rd rs1 imm) s = .next t ∧
    StoppedPrecisely s t (.dispatchError (encode (.fence rd rs1 imm))))

/-! ### The step -/

/-- A step of a running core whose fetched word names an instruction is the execute phase of that instruction on the
state once the fetch is made; nothing else is added around it (R130). That is the same state where RAM answers the
fetch, which is so in every well-formed configuration; where a peripheral answers it, its access is recorded (R66,
R69; log 27). -/
def Obligations.StepRunsDecodedInstruction : Prop :=
  ∀ (s : State) (w : Word) (i : Instr), FetchedWord s w → decodeWord s.cfg.strictDecode w = .ok i →
    step s = exec i s.afterFetch ∧
    ((∀ d, findDevice s.cfg.devices s.pc .four = some d → d.kind = .ram) → s.afterFetch = s) ∧
    (configWf s.cfg = true → s.afterFetch = s)

/-- The same from the bytes: where the four bytes at the pc lie in RAM and are the little-endian bytes of a
well-formed instruction's word, a step runs that instruction. -/
def Obligations.StepRunsEncodedBytes : Prop :=
  ∀ (s : State) (i : Instr), s.status = .running → inImage s.cfg s.pc = true → RamAccess s s.pc .four →
    i.wf s.cfg.strictDecode = true →
    (∀ k, k < 4 → Memory.read s.mem (s.pc.toNat + k) = BitVec.ofNat 8 ((encode i).toNat / 2 ^ (8 * k))) →
    step s = exec i s

/-- A stop is final and nothing else ends a run without a next state: `step` answers a fault exactly from a stopped state, and names the stop (R130, R289, decision D27). -/
def Obligations.FaultExactlyFromStoppedState : Prop :=
  ∀ (s : State) (r : Fault), step s = .fault r ↔ ∃ why, s.status = .stopped why ∧ r = .halted why

/-- Before any fetch, a pc below IMAGE_BASE or at or above IMAGE_BASE + IMAGE_LEN ends the run with PcOut, and
no other step does (R38, R131, decision D8). -/
def Obligations.PcOutExactlyOutsideImage : Prop :=
  ∀ s : State, s.status = .running →
    (¬ (s.cfg.ramBase.toNat ≤ s.pc.toNat ∧ s.pc.toNat < s.cfg.ramBase.toNat + s.cfg.imageLen) →
      ∃ t, step s = .next t ∧ StoppedPrecisely s t (.pcOut s.pc)) ∧
    (s.cfg.ramBase.toNat ≤ s.pc.toNat ∧ s.pc.toNat < s.cfg.ramBase.toNat + s.cfg.imageLen →
      ∀ t p, step s = .next t → t.status ≠ .stopped (.pcOut p))

/-- A fetch that no device owns stops the core with BusError(fetch, pc, 4) (R286, decision D11). -/
def Obligations.UnmappedFetchStops : Prop :=
  ∀ s : State, s.status = .running → inImage s.cfg s.pc = true →
    findDevice s.cfg.devices s.pc .four = none →
    ∃ t, step s = .next t ∧ StoppedPrecisely s t (.busError .fetch s.pc 4)

/-- R104, R284. 117 of the 128 opcode values are not recognised; a fetched word with one of them stops the core
with DecodeError, and that word is recorded. It depends on the opcode bits alone. -/
def Obligations.UnrecognisedOpcodeStops : Prop :=
  ((List.range 128).filter (fun n => decide (BitVec.ofNat 7 n ∉ recognisedOpcodes))).length = 117 ∧
  (∀ (strict : Bool) (w : Word),
    decodeWord strict w = .error .unrecognisedOpcode ↔ field w 0 7 ∉ recognisedOpcodes) ∧
  (∀ (s : State) (w : Word), FetchedWord s w → field w 0 7 ∉ recognisedOpcodes →
    ∃ t, step s = .next t ∧ StoppedPrecisely s.afterFetch t (.decodeError w))

/-- A fetched word with a recognised opcode stops the core with DispatchError exactly when it is one of the words
of R113 (a) to (g) under the parameters in force; the word is recorded (R113, decisions D13 to D16). -/
def Obligations.DispatchErrorExactlyListedWords : Prop :=
  ∀ (s : State) (w : Word), FetchedWord s w → field w 0 7 ∈ recognisedOpcodes →
    (noPathWord s.cfg.lsEnable s.cfg.strictDecode w →
      ∃ t, step s = .next t ∧ StoppedPrecisely s.afterFetch t (.dispatchError w)) ∧
    (¬ noPathWord s.cfg.lsEnable s.cfg.strictDecode w →
      ∀ t w', step s = .next t → t.status ≠ .stopped (.dispatchError w'))

/-- Stops are precise: a step that stops keeps every register, the pc, the parameters and, but for the bytes a
failing RAM has already stored, memory; in a well-formed configuration all of memory (R281, R282, decision D18).
With the other devices no access is made but the fetch, and in a well-formed configuration none. -/
def Obligations.StopsArePrecise : Prop :=
  ∀ (s t : State) (why : Stop), s.status = .running → step s = .next t → t.status = .stopped why →
    (∀ r, t.x r = s.x r) ∧ t.pc = s.pc ∧ t.cfg = s.cfg ∧
    ((∀ a, why ≠ .deviceFault a) → t.mem = s.mem) ∧
    (t.io = s.io ∨ t.io = s.afterFetch.io) ∧
    (configWf s.cfg = true → StoppedPrecisely s t why)

/-- Each stop cause has its one reason, in the order of the tests: what a stop records tells which test failed
(R291). A DeviceFault is RAM's, in a configuration that is not well formed (R287), or a peripheral's (R61;
log 28). -/
def Obligations.StopCauseTellsWhichTestFailed : Prop :=
  ∀ s t : State, s.status = .running → step s = .next t →
    (∀ p, t.status = .stopped (.pcOut p) → p = s.pc ∧ inImage s.cfg s.pc = false) ∧
    (∀ w, t.status = .stopped (.decodeError w) →
      FetchedWord s w ∧ field w 0 7 ∉ recognisedOpcodes) ∧
    (∀ w, t.status = .stopped (.dispatchError w) →
      FetchedWord s w ∧ field w 0 7 ∈ recognisedOpcodes) ∧
    (∀ a n, t.status = .stopped (.busError .fetch a n) →
      inImage s.cfg s.pc = true ∧ a = s.pc ∧ n = 4 ∧ findDevice s.cfg.devices s.pc .four = none) ∧
    (∀ a n, t.status = .stopped (.busError .load a n) →
      s.cfg.lsEnable = true ∧ ∃ w, FetchedWord s w ∧ field w 0 7 = 0b0000011) ∧
    (∀ a n, t.status = .stopped (.busError .store a n) →
      s.cfg.lsEnable = true ∧ ∃ w, FetchedWord s w ∧ field w 0 7 = 0b0100011) ∧
    (∀ a, t.status = .stopped (.deviceFault a) → configWf s.cfg = false ∨ onlyRam s.cfg = false)

/-- A running core always has a next state, for every word, every register contents, every device list and every
setting of the parameters; no step is refused, and every instruction answers a next state (R130, R280). -/
def Obligations.RunningCoreAlwaysSteps : Prop :=
  (∀ s : State, s.status = .running → ∃ t, step s = .next t) ∧
  (∀ (i : Instr) (s : State), ∃ t, exec i s = .next t) ∧
  (∀ (s : State) (r : Refusal), step s ≠ .refused r)

/-- An access that the bus gives to a peripheral is its own `read` or `write` of the access's bytes (R52, R58, R59,
R66): a load writes the value that it answers, a store hands it the low bytes of x[rs2] and leaves RAM alone, a
fetch takes its value as the word; a failure reaches the CPU, which stops precisely (R61). What the peripheral
answers is a free value: the statement holds whatever it is (log 8, log 27, log 28). -/
def Obligations.PeripheralAccessesAreItsReadAndWrite : Prop :=
  (∀ (r rs1 : Reg) (imm : Word) (s : State) (d : Device) (id : Nat), s.cfg.lsEnable = true →
    d.kind = .peripheral id →
    (findDevice s.cfg.devices (effAddr s rs1 imm) .one = some d →
      LoadsFromPeripheral s (.lb r rs1 imm) r id (effAddr s rs1 imm) .one
        (fun v => (v.setWidth 8).signExtend 32) ∧
      LoadsFromPeripheral s (.lbu r rs1 imm) r id (effAddr s rs1 imm) .one
        (fun v => BitVec.ofNat 32 (v.toNat % 2 ^ 8)) ∧
      StoresToPeripheral s (.sb r rs1 imm) id (effAddr s rs1 imm) .one (s.x r)) ∧
    (findDevice s.cfg.devices (effAddr s rs1 imm) .two = some d →
      LoadsFromPeripheral s (.lh r rs1 imm) r id (effAddr s rs1 imm) .two
        (fun v => (v.setWidth 16).signExtend 32) ∧
      LoadsFromPeripheral s (.lhu r rs1 imm) r id (effAddr s rs1 imm) .two
        (fun v => BitVec.ofNat 32 (v.toNat % 2 ^ 16)) ∧
      StoresToPeripheral s (.sh r rs1 imm) id (effAddr s rs1 imm) .two (s.x r)) ∧
    (findDevice s.cfg.devices (effAddr s rs1 imm) .four = some d →
      LoadsFromPeripheral s (.lw r rs1 imm) r id (effAddr s rs1 imm) .four (fun v => v) ∧
      StoresToPeripheral s (.sw r rs1 imm) id (effAddr s rs1 imm) .four (s.x r))) ∧
  (∀ (s : State) (d : Device) (id : Nat), s.status = .running → inImage s.cfg s.pc = true →
    d.kind = .peripheral id → findDevice s.cfg.devices s.pc .four = some d →
    match Config.peripheralRead id s.io s.pc 4 with
    | .ok w => FetchedWord s w ∧ s.afterFetch = { s with io := .read id s.pc 4 :: s.io }
    | .error a => ∃ t, step s = .next t ∧ StoppedPrecisely s t (.deviceFault a))

/-! ### Rules over all instructions -/

/-- No instruction changes a register other than the one its rd field names; an instruction with no rd field
changes none (R26). -/
def Obligations.OnlyDestinationRegisterChanges : Prop :=
  ∀ (i : Instr) (s t : State), exec i s = .next t →
    (∀ r, destOf i ≠ some r → t.x r = s.x r) ∧ t.x 0 = 0

/-- Every instruction but the eight of R28 that completes advances the pc by 4 modulo 2^32; one that stops leaves
it. -/
def Obligations.StraightLineAdvancesByFour : Prop :=
  ∀ (i : Instr) (s t : State), transfersControl i = false → exec i s = .next t →
    t.pc = BitVec.ofNat 32 (s.pc.toNat + 4) ∨ (t.pc = s.pc ∧ ∃ why, t.status = .stopped why)

/-- Memory changes by a store alone, and only with LS_ENABLE true; the devices other than RAM see an access of the
execute phase only from a load or a store, with LS_ENABLE true, and none where RAM is the only kind registered
(R69). -/
def Obligations.MemoryChangesByStoresAlone : Prop :=
  (∀ (i : Instr) (s t : State), exec i s = .next t →
    storesBytes i = false ∨ s.cfg.lsEnable = false → t.mem = s.mem) ∧
  (∀ s t : State, step s = .next t → s.cfg.lsEnable = false → t.mem = s.mem) ∧
  (∀ (i : Instr) (s t : State), exec i s = .next t →
    accessesData i = false ∨ s.cfg.lsEnable = false → t.io = s.io) ∧
  (∀ s t : State, step s = .next t → onlyRam s.cfg = true → t.io = s.io)

/-- No step changes a parameter of the step: RAM_BASE, RAM_SIZE, IMAGE_LEN, the device list, LS_ENABLE,
STRICT_DECODE (R20). -/
def Obligations.ParametersNeverChange : Prop :=
  ∀ s t : State, step s = .next t → t.cfg = s.cfg

/-- From an even pc no step leads to an odd one. (R30 says that bit 0 of pc equals RESET_PC[0] for ever; from an
odd RESET_PC a JALR clears it, R221, so the statement is about even ones; log 9.) -/
def Obligations.EvenPcStaysEven : Prop :=
  ∀ s t : State, s.pc.toNat % 2 = 0 → step s = .next t → t.pc.toNat % 2 = 0

/-- The invariant: well-formed parameters, memory in canonical form inside RAM's buffer, the slot of x0 zero. Every
step keeps it, stops included. -/
def Obligations.StepKeepsInvariant : Prop :=
  ∀ s t : State, s.Inv → step s = .next t → t.Inv

/-- The invariant holds after reset. -/
def Obligations.ResetHasInvariant : Prop := State.reset.Inv

/-! ### Reset -/

/-- The reset state is the power-on state of the default parameters with no image: x0 = 0, x2 one past RAM's last
byte modulo 2^32, the others 0, pc = IMAGE_BASE, status running, no device accessed. The defaults are decisions D3 to D7 of the spec;
RAM_BASE and the zero of unlisted memory are this model's (log 2, log 5). -/
def Obligations.ResetStateValues : Prop :=
  State.reset = powerOn Config.default (Boot.ofImage Config.default []) ∧
  State.reset.x 0 = 0 ∧
  State.reset.x 2 = Config.default.ramBase + BitVec.ofNat 32 Config.default.ramSize ∧
  (∀ r : Reg, r ≠ 2 → State.reset.x r = 0) ∧
  State.reset.pc = Config.default.ramBase ∧ State.reset.status = .running ∧ State.reset.io = []

/-- The power-on state for any parameters, image and initial values: RAM holds the image from IMAGE_BASE upward
and RAM_FILL elsewhere; x0 = 0, x2 = INIT_X2, the others INIT_REGS; pc = RESET_PC; running (R62, R312; the
parameters are decisions D3 to D7). -/
def Obligations.PowerOnStateValues : Prop :=
  ∀ (c : Config) (b : Boot), Memory.wf b.ramFill = true →
    (powerOn c b).x 0 = 0 ∧ (powerOn c b).x 2 = b.initX2 ∧
    (∀ r : Reg, r ≠ 0 → r ≠ 2 → (powerOn c b).x r = b.initRegs[r.toNat]) ∧
    (powerOn c b).pc = b.resetPc ∧ (powerOn c b).status = .running ∧ (powerOn c b).io = [] ∧
    (powerOn c b).cfg = { c with imageLen := b.image.length } ∧
    (∀ (k : Nat) (h : k < b.image.length),
      Memory.read (powerOn c b).mem (c.ramBase.toNat + k) = b.image[k]) ∧
    (∀ a, a < c.ramBase.toNat ∨ c.ramBase.toNat + b.image.length ≤ a →
      Memory.read (powerOn c b).mem a = Memory.read b.ramFill a)

/-- The power-on state of a well-formed configuration whose RAM_FILL lies in RAM meets the invariant (R313). -/
def Obligations.PowerOnHasInvariant : Prop :=
  ∀ (c : Config) (b : Boot), configWf { c with imageLen := b.image.length } = true →
    Memory.wf b.ramFill = true → (∀ x ∈ b.ramFill, inRam c x.1 = true) → (powerOn c b).Inv

/-! ### Registers -/

/-- R22. Register 0 reads as zero in every state, as an operand and in the snapshot. -/
def Obligations.RegisterZeroReadsZero : Prop :=
  ∀ s : State, s.x 0 = 0 ∧ (observe s).regs[0] = 0

/-- A write to register 0 changes nothing; any other register reads back what was written and the others are kept
(R23, the spec's own derivation). -/
def Obligations.RegisterWriteReadsBack : Prop :=
  (∀ (s : State) (v : Word), s.setX 0 v = s) ∧
  (∀ (s : State) (r q : Reg) (v : Word), r ≠ 0 → (s.setX r v).x q = if q = r then v else s.x q)

/-- The snapshot shows the 32 registers as instructions read them, the pc and the status; the code of the status is 0
while running and 1 to 5 by the cause of the stop (R33, R283, decision D17 of the spec). -/
def Obligations.ObservationShowsState : Prop :=
  ∀ s : State,
    (∀ r : Fin 32, (observe s).regs[r] = s.x (BitVec.ofFin r)) ∧
    (observe s).pc = s.pc ∧ (observe s).status = s.status ∧
    (s.status.code = 0 ↔ s.status = .running) ∧
    (∀ p, s.status = .stopped (.pcOut p) → s.status.code = 1) ∧
    (∀ w, s.status = .stopped (.decodeError w) → s.status.code = 2) ∧
    (∀ w, s.status = .stopped (.dispatchError w) → s.status.code = 3) ∧
    (∀ k a n, s.status = .stopped (.busError k a n) → s.status.code = 4) ∧
    (∀ a, s.status = .stopped (.deviceFault a) → s.status.code = 5)

/-! ### The bus and RAM -/

/-- The device that answers an access is the first, in registration order, whose closed range contains the whole
access on unbounded integers; none answers when none contains it (R57, decision D12). -/
def Obligations.FirstContainingDeviceAnswers : Prop :=
  ∀ (ds : List Device) (addr : Word) (n : Width),
    (∀ d, findDevice ds addr n = some d ↔
      ∃ pre post, ds = pre ++ d :: post ∧
        (d.start.toNat ≤ addr.toNat ∧ addr.toNat + n.bytes - 1 ≤ d.last.toNat) ∧
        ∀ e ∈ pre, ¬ (e.start.toNat ≤ addr.toNat ∧ addr.toNat + n.bytes - 1 ≤ e.last.toNat)) ∧
    (findDevice ds addr n = none ↔
      ∀ e ∈ ds, ¬ (e.start.toNat ≤ addr.toNat ∧ addr.toNat + n.bytes - 1 ≤ e.last.toNat))

/-- R54. A read of n bytes that RAM answers is the sum of the bytes, each times 2^(8i), the byte at the lowest
address the least significant; it is below 2^(8n). -/
def Obligations.ReadIsLittleEndian : Prop :=
  ∀ (s : State) (addr : Word) (n : Width), RamAccess s addr n →
    ∃ v, memRead s.cfg s.mem s.io addr n = .ok v ∧
      v.toNat = ((List.range n.bytes).map
        (fun i => 2 ^ (8 * i) * (Memory.read s.mem (addr.toNat + i)).toNat)).sum ∧
      v.toNat < 2 ^ (8 * n.bytes)

/-- R55. A write of n bytes that RAM answers stores byte i of the value at addr + i and no other byte; the bits at
and above 8n are ignored; reading the same bytes back gives the value modulo 2^(8n). -/
def Obligations.WriteIsLittleEndian : Prop :=
  ∀ (s : State) (addr : Word) (n : Width) (v : Word), RamAccess s addr n → Memory.wf s.mem = true →
    ∃ m, memWrite s.cfg s.mem s.io addr n v = .done m ∧
      (∀ a, Memory.read m a =
        if addr.toNat ≤ a ∧ a < addr.toNat + n.bytes
        then BitVec.ofNat 8 (v.toNat / 2 ^ (8 * (a - addr.toNat))) else Memory.read s.mem a) ∧
      memRead s.cfg m s.io addr n = .ok (BitVec.ofNat 32 (v.toNat % 2 ^ (8 * n.bytes)))

/-- In a well-formed configuration with RAM alone, an access succeeds exactly when all its bytes lie in RAM,
whatever its alignment (R57, R68, decisions D10, D12). RAM's own bounds check never fails in a well-formed
configuration, whatever other devices are registered (R65). -/
def Obligations.AccessSucceedsExactlyInsideRam : Prop :=
  ∀ (c : Config) (m : Memory) (io : List DeviceAccess) (addr : Word) (n : Width), configWf c = true →
    (onlyRam c = true →
      ((∃ v, memRead c m io addr n = .ok v) ↔
        c.ramBase.toNat ≤ addr.toNat ∧ addr.toNat + n.bytes ≤ c.ramBase.toNat + c.ramSize) ∧
      (∀ v, (∃ m', memWrite c m io addr n v = .done m') ↔
        c.ramBase.toNat ≤ addr.toNat ∧ addr.toNat + n.bytes ≤ c.ramBase.toNat + c.ramSize)) ∧
    (∀ a, memRead c m io addr n ≠ .error (.outOfBounds a)) ∧
    (∀ v a m', memWrite c m io addr n v ≠ .failed (.outOfBounds a) m')

/-- A word stored in RAM at the address of the next instruction is the word the next step fetches, with no fence or
other action (R75, decision D26). -/
def Obligations.StoreSeenByNextFetch : Prop :=
  ∀ (rs2 rs1 : Reg) (imm : Word) (s t : State), s.status = .running → Memory.wf s.mem = true →
    effAddr s rs1 imm = s.pc + 4 → RamAccess s (s.pc + 4) .four → exec (.sw rs2 rs1 imm) s = .next t → t.status = .running →
    t.pc = s.pc + 4 ∧ memRead t.cfg t.mem t.io t.pc .four = .ok (s.x rs2)

/-! ### The decoder -/

/-- Decoding the word of a well-formed instruction gives that instruction, every operand at every value its
encoding admits, in both settings of STRICT_DECODE. -/
def Obligations.DecodeEncodeRoundTrip : Prop :=
  ∀ (strict : Bool) (i : Instr), i.wf strict = true → decodeWord strict (encode i) = .ok i

/-- A word the decoder accepts is the word of the instruction it gives, and that instruction is well formed: the
decoder drops no bit, and no two words decode to one instruction. -/
def Obligations.DecodeAcceptsOnlyEncodings : Prop :=
  ∀ (strict : Bool) (w : Word) (i : Instr), decodeWord strict w = .ok i →
    i.wf strict = true ∧ encode i = w

/-- The immediates bit by bit, and their ranges (R96 to R101). -/
def Obligations.ImmediateBitsAndRanges : Prop :=
  ∀ w : Word,
    decodeImmediate w .R = 0 ∧
    (∀ k, k < 32 → (decodeImmediate w .I).getLsbD k = w.getLsbD (if k < 11 then 20 + k else 31)) ∧
    (∀ k, k < 32 → (decodeImmediate w .S).getLsbD k =
      w.getLsbD (if k < 5 then 7 + k else if k < 11 then 20 + k else 31)) ∧
    (∀ k, k < 32 → (decodeImmediate w .B).getLsbD k =
      (decide (k ≠ 0) &&
        w.getLsbD (if k < 5 then 7 + k else if k < 11 then 20 + k else if k = 11 then 7 else 31))) ∧
    (∀ k, k < 32 → (decodeImmediate w .U).getLsbD k = (decide (12 ≤ k) && w.getLsbD k)) ∧
    (∀ k, k < 32 → (decodeImmediate w .J).getLsbD k =
      (decide (k ≠ 0) &&
        w.getLsbD (if k < 11 then 20 + k else if k = 11 then 20 else if k < 20 then k else 31))) ∧
    (-2048 ≤ (decodeImmediate w .I).toInt ∧ (decodeImmediate w .I).toInt ≤ 2047) ∧
    (-2048 ≤ (decodeImmediate w .S).toInt ∧ (decodeImmediate w .S).toInt ≤ 2047) ∧
    (-4096 ≤ (decodeImmediate w .B).toInt ∧ (decodeImmediate w .B).toInt ≤ 4094 ∧
      (decodeImmediate w .B).toInt % 2 = 0) ∧
    (decodeImmediate w .U).toNat % 4096 = 0 ∧
    (-1048576 ≤ (decodeImmediate w .J).toInt ∧ (decodeImmediate w .J).toInt ≤ 1048574 ∧
      (decodeImmediate w .J).toInt % 2 = 0)

/-- STRICT_DECODE only takes words away, and the function bits the default does not examine have no effect
(R112, decision D15). -/
def Obligations.StrictDecodeOnlyRejectsMore : Prop :=
  (∀ (w : Word) (i : Instr), decodeWord true w = .ok i → decodeWord false w = .ok i) ∧
  (∀ (w : Word) (i : Instr), decodeWord false w = .ok i → i.wf true = true → decodeWord true w = .ok i) ∧
  (∀ (rd rs1 rs2 : Reg) (f g : BitVec 7) (s : State),
    exec (.sll rd rs1 rs2 f) s = exec (.sll rd rs1 rs2 g) s ∧
    exec (.slt rd rs1 rs2 f) s = exec (.slt rd rs1 rs2 g) s ∧
    exec (.sltu rd rs1 rs2 f) s = exec (.sltu rd rs1 rs2 g) s ∧
    exec (.xor rd rs1 rs2 f) s = exec (.xor rd rs1 rs2 g) s ∧
    exec (.or rd rs1 rs2 f) s = exec (.or rd rs1 rs2 g) s ∧
    exec (.and rd rs1 rs2 f) s = exec (.and rd rs1 rs2 g) s) ∧
  (∀ (rd rs1 : Reg) (imm : Word) (f g : BitVec 3) (s : State),
    exec (.jalr rd rs1 imm f) s = exec (.jalr rd rs1 imm g) s)

/-- Words written out from the encodings, one of each family and format, decode to the instructions they stand for
(95_test_vectors.md sections 1, 4 and 5). -/
def Obligations.WrittenOutWordsDecode : Prop :=
  decodeTableWord 32 0x02000093 = some (.addi 1 0 32) ∧
  decodeTableWord 32 0xfd800093 = some (.addi 1 0 (-40)) ∧
  decodeTableWord 32 0x01180933 = some (.add 18 16 17) ∧
  decodeTableWord 32 0xc0000137 = some (.lui 2 0xC0000000) ∧
  decodeTableWord 32 0x00018863 = some (.beq 3 0 16) ∧
  decodeTableWord 32 0xff1ff06f = some (.jal 0 (-16)) ∧
  decodeTableWord 32 0xfe62ae23 = some (.sw 6 5 (-4)) ∧
  decodeTableWord 32 0x00000073 = some .ecall

/-! ### The units -/

/-- R140. The extension primitives look at the low N bits alone, for every width 1 to 32. -/
def Obligations.ExtensionPrimitives : Prop :=
  ∀ (n : Nat) (v : Word), 1 ≤ n → n ≤ 32 →
    (sext n v).toInt =
      (if v.toNat % 2 ^ n < 2 ^ (n - 1) then (v.toNat % 2 ^ n : Int) else (v.toNat % 2 ^ n : Int) - 2 ^ n) ∧
    (zext n v).toNat = v.toNat % 2 ^ n ∧
    (n = 32 → sext n v = v ∧ zext n v = v)

/-- The operations of the ALU (R142 to R152) as integer arithmetic, narrowed to 32 bits; the shifts use the low
five bits of b. That SRA does so too is the spec's decision D19 (R146, R150; log 22). -/
def Obligations.AluOperations : Prop :=
  ∀ a b : Word,
    (alu .add a b).toNat = (a.toNat + b.toNat) % 2 ^ 32 ∧
    (alu .sub a b).toNat = (a.toNat + 2 ^ 32 - b.toNat) % 2 ^ 32 ∧
    (∀ k, k < 32 → (alu .and a b).getLsbD k = (a.getLsbD k && b.getLsbD k)) ∧
    (∀ k, k < 32 → (alu .or a b).getLsbD k = (a.getLsbD k || b.getLsbD k)) ∧
    (∀ k, k < 32 → (alu .xor a b).getLsbD k = (a.getLsbD k ^^ b.getLsbD k)) ∧
    (alu .sll a b).toNat = a.toNat * 2 ^ (b.toNat % 32) % 2 ^ 32 ∧
    (alu .srl a b).toNat = a.toNat / 2 ^ (b.toNat % 32) ∧
    (alu .sra a b).toInt = a.toInt / 2 ^ (b.toNat % 32) ∧
    ((alu .slt a b).toNat = if a.toInt < b.toInt then 1 else 0) ∧
    ((alu .sltu a b).toNat = if a.toNat < b.toNat then 1 else 0)

/-- R156, R157. The six comparators; GE is the negation of LT and GEU of LTU. -/
def Obligations.BranchComparators : Prop :=
  ∀ a b : Word,
    (branchTaken .eq a b = true ↔ a = b) ∧ (branchTaken .ne a b = true ↔ a ≠ b) ∧
    (branchTaken .lt a b = true ↔ a.toInt < b.toInt) ∧
    (branchTaken .ge a b = true ↔ a.toInt ≥ b.toInt) ∧
    (branchTaken .ltu a b = true ↔ a.toNat < b.toNat) ∧
    (branchTaken .geu a b = true ↔ a.toNat ≥ b.toNat) ∧
    branchTaken .ge a b = !branchTaken .lt a b ∧ branchTaken .geu a b = !branchTaken .ltu a b
end

