-- ==== Sys2Proof/Laws/Memory.lean ====
section
/-! SUPPORT. Memory as a list of cells: reads after writes, and that every operation keeps the canonical
form. -/

namespace Sys2Proof.Machine.Memory

/-! ### The canonical form -/

@[simp] theorem wf_nil : wf [] = true := rfl

theorem wf_cons (k : Nat) (v : Byte) (m : Memory) :
    wf ((k, v) :: m) = true ↔ v ≠ unlisted ∧ (∀ c ∈ m, k < c.1) ∧ wf m = true := by
  simp [wf, and_assoc]

/-- An address below every cell reads as unlisted. -/
theorem read_of_lt {a : Nat} : ∀ {m : Memory}, (∀ c ∈ m, a < c.1) → read m a = unlisted
  | [], _ => rfl
  | (k, v) :: m, h => by
    have hk : a < k := h (k, v) (by simp)
    have : a ≠ k := by omega
    simp only [read, this, if_false]
    exact read_of_lt fun c hc => h c (by simp [hc])

theorem read_cell (a : Nat) (b : Byte) (m : Memory) (h : read m a = unlisted) (x : Nat) :
    read (cell a b m) x = if x = a then b else read m x := by
  unfold cell
  split
  · next hb => split
               · next hx => rw [hx, h, hb]
               · rfl
  · rfl

/-- Reading after a write: the byte written at its own address, the old contents elsewhere. -/
theorem read_write : ∀ {m : Memory}, wf m = true → ∀ (a : Nat) (b : Byte) (x : Nat),
    read (write m a b) x = if x = a then b else read m x
  | [], _, a, b, x => read_cell a b [] rfl x
  | (k, v) :: m, h, a, b, x => by
    obtain ⟨-, hlt, hm⟩ := (wf_cons k v m).mp h
    unfold write
    split
    · next hak =>
      refine read_cell a b _ (read_of_lt fun c hc => ?_) x
      rcases List.mem_cons.mp hc with rfl | hc
      · exact hak
      · exact hak.trans (hlt c hc)
    · split
      · next hak =>
        subst hak
        rw [read_cell a b m (read_of_lt hlt) x]
        simp only [read]
        split <;> rfl
      · next hak =>
        have ih := read_write hm a b x
        simp only [read, ih]
        by_cases hxk : x = k
        · have : x ≠ a := by omega
          simp [hxk, Ne.symm hak]
        · simp [hxk]

theorem mem_cell {a : Nat} {b : Byte} {m : Memory} {c : Host.Cell} (h : c ∈ cell a b m) :
    c = (a, b) ∨ c ∈ m := by
  unfold cell at h
  split at h
  · exact .inr h
  · exact List.mem_cons.mp h

/-- Every cell after a write is the one written or an old one. -/
theorem mem_write : ∀ {m : Memory} {a : Nat} {b : Byte} {c : Host.Cell},
    c ∈ write m a b → c = (a, b) ∨ c ∈ m
  | [], _, _, _, h => mem_cell h
  | (k, v) :: m, a, b, c, h => by
    unfold write at h
    split at h
    · exact mem_cell h
    · split at h
      · rcases mem_cell h with h | h
        · exact .inl h
        · exact .inr (List.mem_cons_of_mem _ h)
      · rcases List.mem_cons.mp h with rfl | h
        · exact .inr (List.mem_cons_self ..)
        · exact (mem_write h).imp id (List.mem_cons_of_mem _)

theorem wf_cell {a : Nat} {b : Byte} {m : Memory} (hm : wf m = true) (h : ∀ c ∈ m, a < c.1) :
    wf (cell a b m) = true := by
  unfold cell
  split
  · exact hm
  · next hb => exact (wf_cons a b m).mpr ⟨hb, h, hm⟩

/-- A write keeps the canonical form. -/
theorem wf_write : ∀ {m : Memory}, wf m = true → ∀ (a : Nat) (b : Byte), wf (write m a b) = true
  | [], _, _, _ => wf_cell rfl (by simp)
  | (k, v) :: m, h, a, b => by
    obtain ⟨hv, hlt, hm⟩ := (wf_cons k v m).mp h
    unfold write
    split
    · next hak =>
      refine wf_cell h fun c hc => ?_
      rcases List.mem_cons.mp hc with rfl | hc
      · exact hak
      · exact hak.trans (hlt c hc)
    · split
      · next hak => exact wf_cell hm (hak ▸ hlt)
      · next h1 h2 =>
        refine (wf_cons k v _).mpr ⟨hv, fun c hc => ?_, wf_write hm a b⟩
        rcases mem_write hc with rfl | hc
        · simp only; omega
        · exact hlt c hc

/-- Writing bytes keeps the canonical form. -/
theorem wf_writeBytes : ∀ (bs : List Byte) {m : Memory} (_ : wf m = true) (a : Nat),
    wf (writeBytes m a bs) = true
  | [], _, h, _ => h
  | b :: bs, _, h, a => wf_writeBytes bs (wf_write h a b) (a + 1)

/-- Every cell after writing bytes is an old one or lies in the range written. -/
theorem mem_writeBytes : ∀ (bs : List Byte) {m : Memory} {a : Nat} {c : Host.Cell},
    c ∈ writeBytes m a bs → c ∈ m ∨ (a ≤ c.1 ∧ c.1 < a + bs.length)
  | [], _, _, _, h => .inl h
  | b :: bs, m, a, c, h => by
    rcases mem_writeBytes bs h with h | ⟨h1, h2⟩
    · rcases mem_write h with rfl | h
      · exact .inr (by simp)
      · exact .inl h
    · exact .inr ⟨by omega, by simp only [List.length_cons]; omega⟩

/-- Reading after writing bytes: the byte of the list inside the range, the old contents outside. -/
theorem read_writeBytes : ∀ (bs : List Byte) {m : Memory} (_ : wf m = true) (a x : Nat),
    read (writeBytes m a bs) x =
      if h : a ≤ x ∧ x < a + bs.length then bs[x - a]'(by omega) else read m x
  | [], _, _, a, x => by
    simp [writeBytes]
  | b :: bs, m, h, a, x => by
    rw [writeBytes, read_writeBytes bs (wf_write h a b) (a + 1) x]
    by_cases hin : a + 1 ≤ x ∧ x < a + 1 + bs.length
    · have h2 : a ≤ x ∧ x < a + (b :: bs).length := by simp only [List.length_cons]; omega
      rw [dif_pos hin, dif_pos h2]
      have : x - a = (x - (a + 1)) + 1 := by omega
      simp [this]
    · rw [dif_neg hin, read_write h]
      by_cases hxa : x = a
      · subst hxa
        have h2 : x ≤ x ∧ x < x + (b :: bs).length := by simp
        rw [dif_pos h2]; simp
      · have h2 : ¬ (a ≤ x ∧ x < a + (b :: bs).length) := by simp only [List.length_cons]; omega
        rw [dif_neg h2, if_neg hxa]

/-- In a memory of canonical form no cell holds what an unlisted address reads as. -/
theorem read_ne_unlisted : ∀ {m : Memory}, wf m = true → ∀ {c : Host.Cell}, c ∈ m → read m c.1 = c.2
  | (k, v) :: m, h, c, hc => by
    obtain ⟨-, hlt, hm⟩ := (wf_cons k v m).mp h
    rcases List.mem_cons.mp hc with rfl | hc
    · simp [read]
    · have : c.1 ≠ k := by have := hlt c hc; omega
      simp only [read, this, if_false]
      exact read_ne_unlisted hm hc

end Sys2Proof.Machine.Memory
end

