-- ==== Sys2Proof/Laws/Bus.lean ====
section
/-! SUPPORT. The bus and RAM: what findDevice, MemRead and MemWrite can do, one lemma for each. -/

namespace Sys2Proof.Machine

/-! ### Addresses and devices -/

@[simp] theorem inRam_iff (c : Config) (a : Nat) :
    inRam c a = true ↔ c.ramBase.toNat ≤ a ∧ a < c.ramBase.toNat + c.ramSize := by
  simp [inRam]

theorem deviceContains_iff (d : Device) (addr : Word) (n : Width) :
    deviceContains d addr n = true ↔
      d.start.toNat ≤ addr.toNat ∧ addr.toNat + n.bytes - 1 ≤ d.last.toNat := by
  simp [deviceContains]

theorem width_pos (n : Width) : 1 ≤ n.bytes := by cases n <;> decide

theorem width_le (n : Width) : n.bytes ≤ 4 := by cases n <;> decide

/-- The device that answers is registered and contains the access. -/
theorem findDevice_some : ∀ {ds : List Device} {addr : Word} {n : Width} {d : Device},
    findDevice ds addr n = some d → d ∈ ds ∧ deviceContains d addr n = true
  | e :: ds, addr, n, d, h => by
    unfold findDevice at h
    split at h
    · next hc => cases h; exact ⟨List.mem_cons_self .., hc⟩
    · obtain ⟨h1, h2⟩ := findDevice_some h; exact ⟨List.mem_cons_of_mem _ h1, h2⟩

/-! ### RAM -/

/-- What RAM's read answers on an access inside its buffer does not depend on bytes outside the access. -/
theorem ramRead_congr (c : Config) {m m' : Memory} : ∀ (n a : Nat),
    (∀ k, k < n → m.read (a + k) = m'.read (a + k)) → ramRead c m a n = ramRead c m' a n
  | 0, _, _ => rfl
  | n + 1, a, h => by
    have h0 : m.read a = m'.read a := h 0 (by omega)
    have ih : ramRead c m (a + 1) n = ramRead c m' (a + 1) n :=
      ramRead_congr c n (a + 1) fun k hk => by
        have := h (k + 1) (by omega)
        rwa [show a + (k + 1) = a + 1 + k by omega] at this
    simp only [ramRead, h0, ih]

/-- RAM's read succeeds exactly when every byte lies in the buffer; otherwise it fails at a byte outside. -/
theorem ramRead_cases (c : Config) (m : Memory) : ∀ (n a : Nat),
    ((∀ k, k < n → inRam c (a + k) = true) ∧ ∃ v, ramRead c m a n = .ok v) ∨
    (∃ k, k < n ∧ inRam c (a + k) = false ∧ ramRead c m a n = .error (a + k))
  | 0, _ => .inl ⟨fun _ h => absurd h (Nat.not_lt_zero _), 0, rfl⟩
  | n + 1, a => by
    unfold ramRead
    cases ha : inRam c a with
    | false => exact .inr ⟨0, by omega, by simpa using ha, by simp⟩
    | true =>
      rcases ramRead_cases c m n (a + 1) with ⟨hall, v, hv⟩ | ⟨k, hk, hout, he⟩
      · refine .inl ⟨fun k hk => ?_, (m.read a).setWidth 32 ||| v <<< 8, by simp [hv]⟩
        cases k with
        | zero => simpa using ha
        | succ k => rw [show a + (k + 1) = a + 1 + k by omega]; exact hall k (by omega)
      · refine .inr ⟨k + 1, by omega, ?_, ?_⟩
        · rwa [show a + (k + 1) = a + 1 + k by omega]
        · simp [he, show a + (k + 1) = a + 1 + k by omega]

/-- The low `n` bytes of a value, in ascending address order (R55). -/
def valueBytes : Nat → Word → List Byte
  | 0, _ => []
  | n + 1, v => field v 0 8 :: valueBytes n (v >>> 8)

@[simp] theorem valueBytes_length : ∀ (n : Nat) (v : Word), (valueBytes n v).length = n
  | 0, _ => rfl
  | n + 1, v => by simp [valueBytes, valueBytes_length n]

/-- RAM's write inside the buffer stores the value's bytes; otherwise it fails at a byte outside. -/
theorem ramWrite_cases (c : Config) : ∀ (n : Nat) (m : Memory) (a : Nat) (v : Word),
    ((∀ k, k < n → inRam c (a + k) = true) ∧
      ramWrite c m a n v = .done (m.writeBytes a (valueBytes n v))) ∨
    (∃ k, k < n ∧ inRam c (a + k) = false ∧ (∀ j, j < k → inRam c (a + j) = true) ∧
      ramWrite c m a n v = .failed (a + k) (m.writeBytes a (valueBytes k v)))
  | 0, m, a, v => .inl ⟨fun _ h => absurd h (Nat.not_lt_zero _), rfl⟩
  | n + 1, m, a, v => by
    unfold ramWrite
    cases ha : inRam c a with
    | false =>
      exact .inr ⟨0, by omega, by simpa using ha, fun _ h => absurd h (Nat.not_lt_zero _), by
        simp [valueBytes, Memory.writeBytes]⟩
    | true =>
      rcases ramWrite_cases c n (m.write a (field v 0 8)) (a + 1) (v >>> 8) with
        ⟨hall, hw⟩ | ⟨k, hk, hout, hin, hw⟩
      · refine .inl ⟨fun k hk => ?_, by simp [hw, valueBytes, Memory.writeBytes]⟩
        cases k with
        | zero => simpa using ha
        | succ k => rw [show a + (k + 1) = a + 1 + k by omega]; exact hall k (by omega)
      · refine .inr ⟨k + 1, by omega, ?_, fun j hj => ?_, ?_⟩
        · rwa [show a + (k + 1) = a + 1 + k by omega]
        · cases j with
          | zero => simpa using ha
          | succ j => rw [show a + (j + 1) = a + 1 + j by omega]; exact hin j (by omega)
        · simp [hw, valueBytes, Memory.writeBytes, show a + (k + 1) = a + 1 + k by omega]

/-! ### The bus -/

/-- Everything MemRead can do: no device, RAM's own answer, or a peripheral's. -/
theorem memRead_cases (c : Config) (m : Memory) (io : List DeviceAccess) (addr : Word) (n : Width) :
    (findDevice c.devices addr n = none ∧ memRead c m io addr n = .error (.noDeviceMapped addr n.bytes)) ∨
    (∃ d, findDevice c.devices addr n = some d ∧ d.kind = .ram ∧
      ((∃ v, ramRead c m addr.toNat n.bytes = .ok v ∧ memRead c m io addr n = .ok v) ∨
       (∃ a, ramRead c m addr.toNat n.bytes = .error a ∧
          memRead c m io addr n = .error (.outOfBounds a)))) ∨
    (∃ d id, findDevice c.devices addr n = some d ∧ d.kind = .peripheral id ∧
      ((∃ v, peripheralRead id io addr n = .ok v ∧ memRead c m io addr n = .ok v) ∨
       (∃ a, peripheralRead id io addr n = .error a ∧
          memRead c m io addr n = .error (.peripheralFailed a)))) := by
  unfold memRead
  split
  · next h => exact .inl ⟨h, rfl⟩
  · next h =>
    refine .inr (.inl ⟨_, h, rfl, ?_⟩)
    split
    · next hv => exact .inl ⟨_, hv, rfl⟩
    · next he => exact .inr ⟨_, he, rfl⟩
  · next h =>
    refine .inr (.inr ⟨_, _, h, rfl, ?_⟩)
    split
    · next hv => exact .inl ⟨_, hv, rfl⟩
    · next he => exact .inr ⟨_, he, rfl⟩

/-- Everything MemWrite can do. -/
theorem memWrite_cases (c : Config) (m : Memory) (io : List DeviceAccess) (addr : Word) (n : Width) (v : Word) :
    (findDevice c.devices addr n = none ∧
      memWrite c m io addr n v = .failed (.noDeviceMapped addr n.bytes) m) ∨
    (∃ d, findDevice c.devices addr n = some d ∧ d.kind = .ram ∧
      ((∃ m', ramWrite c m addr.toNat n.bytes v = .done m' ∧ memWrite c m io addr n v = .done m') ∨
       (∃ a m', ramWrite c m addr.toNat n.bytes v = .failed a m' ∧
          memWrite c m io addr n v = .failed (.outOfBounds a) m'))) ∨
    (∃ d id, findDevice c.devices addr n = some d ∧ d.kind = .peripheral id ∧
      ((peripheralWrite id io addr n v = .ok () ∧ memWrite c m io addr n v = .done m) ∨
       (∃ a, peripheralWrite id io addr n v = .error a ∧
          memWrite c m io addr n v = .failed (.peripheralFailed a) m))) := by
  unfold memWrite
  split
  · next h => exact .inl ⟨h, rfl⟩
  · next h =>
    refine .inr (.inl ⟨_, h, rfl, ?_⟩)
    split
    · next hv => exact .inl ⟨_, hv, rfl⟩
    · next he => exact .inr ⟨_, _, he, rfl⟩
  · next h =>
    refine .inr (.inr ⟨_, _, h, rfl, ?_⟩)
    split
    · next hv => exact .inl ⟨hv, rfl⟩
    · next he => exact .inr ⟨_, he, rfl⟩

/-- A read that no peripheral answers leaves the other devices as they are. -/
theorem ioAfterRead_of_not_peripheral {c : Config} {io : List DeviceAccess} {addr : Word} {n : Width}
    (h : ∀ d, findDevice c.devices addr n = some d → d.kind = .ram) : ioAfterRead c io addr n = io := by
  unfold ioAfterRead
  split
  · rfl
  · rfl
  · next hd => cases h _ hd

/-- A read that a peripheral answers is recorded. -/
theorem ioAfterRead_of_peripheral {c : Config} {io : List DeviceAccess} {addr : Word} {n : Width} {d : Device}
    {id : Nat} (h : findDevice c.devices addr n = some d) (hk : d.kind = .peripheral id) :
    ioAfterRead c io addr n = .read id addr n.bytes :: io := by
  obtain ⟨start, last, kind⟩ := d
  cases hk
  simp only [ioAfterRead, h]

/-- A write that no peripheral answers leaves the other devices as they are. -/
theorem ioAfterWrite_of_not_peripheral {c : Config} {io : List DeviceAccess} {addr : Word} {n : Width} {v : Word}
    (h : ∀ d, findDevice c.devices addr n = some d → d.kind = .ram) : ioAfterWrite c io addr n v = io := by
  unfold ioAfterWrite
  split
  · rfl
  · rfl
  · next hd => cases h _ hd

/-- A write that a peripheral answers is recorded, with the low n bytes of the value. -/
theorem ioAfterWrite_of_peripheral {c : Config} {io : List DeviceAccess} {addr : Word} {n : Width} {v : Word}
    {d : Device} {id : Nat} (h : findDevice c.devices addr n = some d) (hk : d.kind = .peripheral id) :
    ioAfterWrite c io addr n v = .write id addr n.bytes (zext (8 * n.bytes) v) :: io := by
  obtain ⟨start, last, kind⟩ := d
  cases hk
  simp only [ioAfterWrite, h]

/-- Where RAM is the only kind of device registered, every access that a device answers is RAM's. -/
theorem kind_of_onlyRam {c : Config} (h : onlyRam c = true) {addr : Word} {n : Width} (d : Device)
    (hd : findDevice c.devices addr n = some d) : d.kind = .ram := by
  simp only [onlyRam, List.all_eq_true, decide_eq_true_eq] at h
  exact h d (findDevice_some hd).1

/-- The memory a write leaves, whether it succeeded or failed. -/
def WriteResult.memory {φ : Type} : WriteResult φ → Memory
  | .done m => m
  | .failed _ m => m

/-- Whatever MemWrite answers, the memory it leaves is some leading bytes of the value written at the
address, each of them inside RAM's buffer. -/
theorem memWrite_memory (c : Config) (m : Memory) (io : List DeviceAccess) (addr : Word) (n : Width) (v : Word) :
    ∃ k, (∀ j, j < k → inRam c (addr.toNat + j) = true) ∧
      (memWrite c m io addr n v).memory = m.writeBytes addr.toNat (valueBytes k v) := by
  have zero : ∀ j, j < 0 → inRam c (addr.toNat + j) = true := fun _ h => absurd h (Nat.not_lt_zero _)
  rcases memWrite_cases c m io addr n v with
    ⟨-, h⟩ | ⟨d, -, -, ⟨m', hr, h⟩ | ⟨a, m', hr, h⟩⟩ | ⟨d, id, -, -, ⟨-, h⟩ | ⟨a, -, h⟩⟩
  · exact ⟨0, zero, by rw [h]; rfl⟩
  · rcases ramWrite_cases c n.bytes m addr.toNat v with ⟨hall, hw⟩ | ⟨k, -, -, -, hw⟩
    · rw [hr] at hw; cases hw; exact ⟨n.bytes, hall, by rw [h]; rfl⟩
    · rw [hr] at hw; cases hw
  · rcases ramWrite_cases c n.bytes m addr.toNat v with ⟨-, hw⟩ | ⟨k, -, -, hin, hw⟩
    · rw [hr] at hw; cases hw
    · rw [hr] at hw; cases hw; exact ⟨k, hin, by rw [h]; rfl⟩
  · exact ⟨0, zero, by rw [h]; rfl⟩
  · exact ⟨0, zero, by rw [h]; rfl⟩

/-- Every memory a bus write leaves keeps the canonical form. -/
theorem memWrite_keeps_wf {c : Config} {m : Memory} (hm : m.wf = true) (io : List DeviceAccess) (addr : Word)
    (n : Width) (v : Word) : (memWrite c m io addr n v).memory.wf = true := by
  obtain ⟨k, -, h⟩ := memWrite_memory c m io addr n v
  rw [h]; exact Memory.wf_writeBytes _ hm _

/-- Every memory a bus write leaves stays inside RAM's buffer. -/
theorem memWrite_keeps_inRam {c : Config} {m : Memory} (hm : ∀ x ∈ m, inRam c x.1 = true)
    (io : List DeviceAccess) (addr : Word) (n : Width) (v : Word) :
    ∀ x ∈ (memWrite c m io addr n v).memory, inRam c x.1 = true := by
  obtain ⟨k, hk, h⟩ := memWrite_memory c m io addr n v
  intro x hx
  rw [h] at hx
  rcases Memory.mem_writeBytes _ hx with hx | ⟨h1, h2⟩
  · exact hm x hx
  · have := hk (x.1 - addr.toNat) (by simp at h2; omega)
    rwa [show addr.toNat + (x.1 - addr.toNat) = x.1 by omega] at this

end Sys2Proof.Machine
end

