-- ==== Sys2Proof/Laws/Decode.lean ====
section
/-! SUPPORT. The fields of an encoded word, the immediates it gives back, and the ranges of the
immediates. -/

namespace Sys2Proof

/-! ### Bits of a sign extension -/

/-- The bits of a sign extension: the low `n` bits as they are, the rest copies of bit `n - 1`. -/
theorem getLsbD_sext {n : Nat} (hn : 1 ≤ n) (hn' : n ≤ 32) (v : Word) (k : Nat) :
    (sext n v).getLsbD k = (decide (k < 32) && v.getLsbD (if k < n then k else n - 1)) := by
  unfold sext
  rw [BitVec.getLsbD_signExtend]
  by_cases hk : k < n
  · simp [hk]
  · have : n - 1 < n := by omega
    simp [hk, BitVec.msb_eq_getLsbD_last, this]

/-- The same for a bit below 32. -/
theorem getElem_sext {n : Nat} (hn : 1 ≤ n) (hn' : n ≤ 32) (v : Word) (k : Nat) (hk : k < 32) :
    (sext n v)[k] = v.getLsbD (if k < n then k else n - 1) := by
  rw [← BitVec.getLsbD_eq_getElem, getLsbD_sext hn hn', decide_eq_true hk, Bool.true_and]

/-! ### Opcodes -/

@[simp] theorem Opcode.ofBits_bits (o : Opcode) : Opcode.ofBits o.bits = some o := by cases o <;> decide

theorem Opcode.ofBits_some {b : BitVec 7} {o : Opcode} (h : Opcode.ofBits b = some o) : b = o.bits := by
  unfold Opcode.ofBits at h
  repeat' split at h
  all_goals first | (cases h; assumption) | cases h

/-- The Decoded Instruction of a word whose opcode is recognised. -/
def decodedOf (o : Opcode) (w : Word) : Decoded where
  raw    := w
  opcode := o.bits
  rd     := field w 7 5
  funct3 := field w 12 3
  rs1    := field w 15 5
  rs2    := field w 20 5
  funct7 := field w 25 7
  format := o.format
  imm    := decodeImmediate w o.format

theorem decode_of_opcode {w : Word} {o : Opcode} (h : field w 0 7 = o.bits) :
    decode w = some (decodedOf o w) := by
  simp [decode, detectFormat, h, decodedOf]

/-- Everything the decoder can answer: the opcode is not recognised; or it is, and dispatch finds no row, or
finds the row of the instruction answered. -/
theorem decodeWord_cases (strict : Bool) (w : Word) :
    (Opcode.ofBits (field w 0 7) = none ∧ decodeWord strict w = .error .unrecognisedOpcode) ∨
    (∃ o, field w 0 7 = o.bits ∧ dispatch strict (decodedOf o w) = none ∧
      decodeWord strict w = .error .noExecutePath) ∨
    (∃ o i, field w 0 7 = o.bits ∧ dispatch strict (decodedOf o w) = some i ∧
      decodeWord strict w = .ok i) := by
  cases ho : Opcode.ofBits (field w 0 7) with
  | none => exact .inl ⟨rfl, by simp [decodeWord, decode, detectFormat, ho]⟩
  | some o =>
    have hb := Opcode.ofBits_some ho
    have hw := decode_of_opcode hb
    cases hd : dispatch strict (decodedOf o w) with
    | none => exact .inr (.inl ⟨o, hb, hd, by simp [decodeWord, hw, hd]⟩)
    | some i => exact .inr (.inr ⟨o, i, hb, hd, by simp [decodeWord, hw, hd]⟩)

/-- The row that dispatch selects is what the decoder answers. -/
theorem decodeWord_of_dispatch {strict : Bool} {w : Word} {o : Opcode} {i : Instr}
    (h : field w 0 7 = o.bits) (hd : dispatch strict (decodedOf o w) = some i) :
    decodeWord strict w = .ok i := by
  simp [decodeWord, decode_of_opcode h, hd]

/-! ### Fields of the encoded formats -/

section
variable (f7 : BitVec 7) (rs2 rs1 rd : Reg) (f3 : BitVec 3) (opc : Opcode) (imm w : Word)

@[simp] theorem opcode_encR : field (encR f7 rs2 rs1 f3 rd opc) 0 7 = opc.bits := by
  refine BitVec.eq_of_getLsbD_eq fun k hk => ?_
  interval_cases k <;> simp [encR, field, place]
@[simp] theorem rd_encR : field (encR f7 rs2 rs1 f3 rd opc) 7 5 = rd := by
  refine BitVec.eq_of_getLsbD_eq fun k hk => ?_
  interval_cases k <;> simp [encR, field, place]
@[simp] theorem funct3_encR : field (encR f7 rs2 rs1 f3 rd opc) 12 3 = f3 := by
  refine BitVec.eq_of_getLsbD_eq fun k hk => ?_
  interval_cases k <;> simp [encR, field, place]
@[simp] theorem rs1_encR : field (encR f7 rs2 rs1 f3 rd opc) 15 5 = rs1 := by
  refine BitVec.eq_of_getLsbD_eq fun k hk => ?_
  interval_cases k <;> simp [encR, field, place]
@[simp] theorem rs2_encR : field (encR f7 rs2 rs1 f3 rd opc) 20 5 = rs2 := by
  refine BitVec.eq_of_getLsbD_eq fun k hk => ?_
  interval_cases k <;> simp [encR, field, place]
@[simp] theorem funct7_encR : field (encR f7 rs2 rs1 f3 rd opc) 25 7 = f7 := by
  refine BitVec.eq_of_getLsbD_eq fun k hk => ?_
  interval_cases k <;> simp [encR, field, place]

/-- Format I is format R with imm[11:5] and imm[4:0] where funct7 and rs2 stand (R92). -/
theorem encI_eq_encR : encI imm rs1 f3 rd opc = encR (field imm 5 7) (field imm 0 5) rs1 f3 rd opc := by
  refine BitVec.eq_of_getLsbD_eq fun k hk => ?_
  interval_cases k <;> simp [encI, encR, field, place]

/-- Format S is format R with imm[11:5] and imm[4:0] where funct7 and rd stand (R92). -/
theorem encS_eq_encR : encS imm rs2 rs1 f3 opc = encR (field imm 5 7) rs2 rs1 f3 (field imm 0 5) opc := rfl

@[simp] theorem opcode_encI : field (encI imm rs1 f3 rd opc) 0 7 = opc.bits := by simp [encI_eq_encR]
@[simp] theorem opcode_encS : field (encS imm rs2 rs1 f3 opc) 0 7 = opc.bits := by simp [encS_eq_encR]
@[simp] theorem opcode_encB : field (encB imm rs2 rs1 f3 opc) 0 7 = opc.bits := by
  refine BitVec.eq_of_getLsbD_eq fun k hk => ?_
  interval_cases k <;> simp [encB, field, place]
@[simp] theorem opcode_encU : field (encU imm rd opc) 0 7 = opc.bits := by
  refine BitVec.eq_of_getLsbD_eq fun k hk => ?_
  interval_cases k <;> simp [encU, field, place]
@[simp] theorem opcode_encJ : field (encJ imm rd opc) 0 7 = opc.bits := by
  refine BitVec.eq_of_getLsbD_eq fun k hk => ?_
  interval_cases k <;> simp [encJ, field, place]

@[simp] theorem rs2_encB : field (encB imm rs2 rs1 f3 opc) 20 5 = rs2 := by
  refine BitVec.eq_of_getLsbD_eq fun k hk => ?_
  interval_cases k <;> simp [encB, field, place]
@[simp] theorem rs1_encB : field (encB imm rs2 rs1 f3 opc) 15 5 = rs1 := by
  refine BitVec.eq_of_getLsbD_eq fun k hk => ?_
  interval_cases k <;> simp [encB, field, place]
@[simp] theorem funct3_encB : field (encB imm rs2 rs1 f3 opc) 12 3 = f3 := by
  refine BitVec.eq_of_getLsbD_eq fun k hk => ?_
  interval_cases k <;> simp [encB, field, place]
@[simp] theorem rd_encU : field (encU imm rd opc) 7 5 = rd := by
  refine BitVec.eq_of_getLsbD_eq fun k hk => ?_
  interval_cases k <;> simp [encU, field, place]
@[simp] theorem rd_encJ : field (encJ imm rd opc) 7 5 = rd := by
  refine BitVec.eq_of_getLsbD_eq fun k hk => ?_
  interval_cases k <;> simp [encJ, field, place]

/-! ### The immediates an encoded word gives back -/

theorem immI_encI : immI (encI imm rs1 f3 rd opc) = sext 12 imm := by
  refine BitVec.eq_of_getLsbD_eq fun k hk => ?_
  rw [immI, getLsbD_sext (by decide) (by decide), getLsbD_sext (by decide) (by decide)]
  congr 1
  generalize hj : (if k < 12 then k else 12 - 1) = j
  have : j < 12 := by subst hj; split <;> omega
  interval_cases j <;> simp [encI, field, place]

theorem immS_encS : immS (encS imm rs2 rs1 f3 opc) = sext 12 imm := by
  refine BitVec.eq_of_getLsbD_eq fun k hk => ?_
  rw [immS, getLsbD_sext (by decide) (by decide), getLsbD_sext (by decide) (by decide)]
  congr 1
  generalize hj : (if k < 12 then k else 12 - 1) = j
  have : j < 12 := by subst hj; split <;> omega
  interval_cases j <;> simp [encS, field, place]

theorem immB_encB (h : imm.getLsbD 0 = false) : immB (encB imm rs2 rs1 f3 opc) = sext 13 imm := by
  refine BitVec.eq_of_getLsbD_eq fun k hk => ?_
  rw [immB, getLsbD_sext (by decide) (by decide), getLsbD_sext (by decide) (by decide)]
  congr 1
  generalize hj : (if k < 13 then k else 13 - 1) = j
  have : j < 13 := by subst hj; split <;> omega
  interval_cases j <;> simp_all [encB, field, place]

theorem immU_encU (h : ∀ k, k < 12 → imm.getLsbD k = false) : immU (encU imm rd opc) = imm := by
  refine BitVec.eq_of_getLsbD_eq fun k hk => ?_
  by_cases hk' : k < 12
  · rw [h k hk']; simp [immU, place, hk']
  · interval_cases k <;> simp_all [immU, encU, field, place]

theorem immJ_encJ (h : imm.getLsbD 0 = false) : immJ (encJ imm rd opc) = sext 21 imm := by
  refine BitVec.eq_of_getLsbD_eq fun k hk => ?_
  rw [immJ, getLsbD_sext (by decide) (by decide), getLsbD_sext (by decide) (by decide)]
  congr 1
  generalize hj : (if k < 21 then k else 21 - 1) = j
  have : j < 21 := by subst hj; split <;> omega
  interval_cases j <;> simp_all [encJ, field, place]

/-! ### A word is its fields -/

theorem encR_fields (h : field w 0 7 = opc.bits) :
    encR (field w 25 7) (field w 20 5) (field w 15 5) (field w 12 3) (field w 7 5) opc = w := by
  rw [encR, ← h]
  refine BitVec.eq_of_getLsbD_eq fun k hk => ?_
  interval_cases k <;> simp [field, place]

end

/-! ### Ranges of immediates -/

/-- The signed value of a sign extension lies in the range of its width. -/
theorem toInt_sext_range {n : Nat} (hn : n ≤ 32) (v : Word) :
    -(2 ^ (n - 1) : Int) ≤ (sext n v).toInt ∧ (sext n v).toInt < 2 ^ (n - 1) := by
  have h : (sext n v).toInt = (v.setWidth n).toInt := by
    rw [sext, BitVec.toInt_signExtend_of_le hn]
  rw [h]
  exact ⟨by simpa using BitVec.le_toInt (v.setWidth n), by simpa using BitVec.toInt_lt (x := v.setWidth n)⟩

/-- A value in the signed range of a width is its own sign extension from that width. -/
theorem sext_of_range {n : Nat} (hn : 1 ≤ n) (hn' : n ≤ 32) (v : Word)
    (h1 : -(2 ^ (n - 1) : Int) ≤ v.toInt) (h2 : v.toInt < 2 ^ (n - 1)) : sext n v = v := by
  apply BitVec.eq_of_toInt_eq
  have hp : (2 ^ n : Nat) = 2 * 2 ^ (n - 1) := by rw [← pow_succ']; congr 1; omega
  have hv : v.toInt = (v.toNat : Int).bmod (2 ^ 32) := BitVec.toInt_eq_toNat_bmod v
  rw [sext, BitVec.toInt_signExtend_of_le hn', BitVec.toInt_setWidth,
    ← Int.bmod_bmod_of_dvd (m := 2 ^ 32) (pow_dvd_pow 2 hn'), ← hv]
  apply Int.bmod_eq_of_le <;> rw [hp] <;> push_cast <;> omega

/-- Even as a signed number: bit 0 is 0. -/
theorem toInt_even_iff (v : Word) : v.toInt % 2 = 0 ↔ v.getLsbD 0 = false := by
  have h := BitVec.toInt_eq_toNat_cond v
  rw [BitVec.getLsbD, Nat.testBit_zero]
  split at h <;> simp <;> omega

/-- A multiple of 4096: the low 12 bits are 0. -/
theorem getLsbD_of_mod_4096 {v : Word} (h : v.toNat % 4096 = 0) {k : Nat} (hk : k < 12) :
    v.getLsbD k = false := by
  have : v.toNat = 2 ^ 12 * (v.toNat / 2 ^ 12) := by omega
  rw [BitVec.getLsbD, this, Nat.testBit_two_pow_mul]
  simp; omega

theorem sext_of_immFits12 {imm : Word} (h : immFits12 imm = true) : sext 12 imm = imm := by
  obtain ⟨h1, h2⟩ := of_decide_eq_true h
  exact sext_of_range (by decide) (by decide) imm (by simpa using h1) (by norm_num; omega)

theorem sext_of_immFitsB {imm : Word} (h : immFitsB imm = true) : sext 13 imm = imm := by
  obtain ⟨h1, h2, -⟩ := of_decide_eq_true h
  exact sext_of_range (by decide) (by decide) imm (by simpa using h1) (by norm_num; omega)

theorem sext_of_immFitsJ {imm : Word} (h : immFitsJ imm = true) : sext 21 imm = imm := by
  obtain ⟨h1, h2, -⟩ := of_decide_eq_true h
  exact sext_of_range (by decide) (by decide) imm (by simpa using h1) (by norm_num; omega)

theorem immFits12_sext (v : Word) : immFits12 (sext 12 v) = true := by
  obtain ⟨h1, h2⟩ := toInt_sext_range (n := 12) (by decide) v
  exact decide_eq_true ⟨by simpa using h1, by norm_num at h2; omega⟩

end Sys2Proof
end

