-- ==== Sys2Proof/Laws/PerInstr.lean ====
section
/-! SUPPORT. Facts stated for every instruction, one lemma for each constructor. -/

namespace Sys2Proof.Laws

/-- The opcode of the row of R107 that an instruction is. -/
def opcodeOf : Instr → Opcode
  | .addi _ _ _ | .slti _ _ _ | .sltiu _ _ _ | .xori _ _ _ | .ori _ _ _ | .andi _ _ _
  | .slli _ _ _ | .srli _ _ _ | .srai _ _ _ => .opImm
  | .add _ _ _ | .sub _ _ _ | .sll _ _ _ _ | .slt _ _ _ _ | .sltu _ _ _ _ | .xor _ _ _ _
  | .srl _ _ _ | .sra _ _ _ | .or _ _ _ _ | .and _ _ _ _ => .op
  | .lui _ _ => .lui
  | .auipc _ _ => .auipc
  | .jal _ _ => .jal
  | .jalr _ _ _ _ => .jalr
  | .beq _ _ _ | .bne _ _ _ | .blt _ _ _ | .bge _ _ _ | .bltu _ _ _ | .bgeu _ _ _ => .branch
  | .lb _ _ _ | .lh _ _ _ | .lw _ _ _ | .lbu _ _ _ | .lhu _ _ _ => .load
  | .sb _ _ _ | .sh _ _ _ | .sw _ _ _ => .store
  | .ecall | .ebreak => .system
  | .fence _ _ _ => .miscMem

namespace Fields

/-- The word of an instruction holds its opcode in bits 6:0, whatever its operands (R103, R107). -/
def Statement (i : Instr) : Prop := field (encode i) 0 7 = (opcodeOf i).bits

theorem addi (rd rs1 : Reg) (imm : Word) : Statement (.addi rd rs1 imm) := opcode_encI _ _ _ _ _
theorem slti (rd rs1 : Reg) (imm : Word) : Statement (.slti rd rs1 imm) := opcode_encI _ _ _ _ _
theorem sltiu (rd rs1 : Reg) (imm : Word) : Statement (.sltiu rd rs1 imm) := opcode_encI _ _ _ _ _
theorem xori (rd rs1 : Reg) (imm : Word) : Statement (.xori rd rs1 imm) := opcode_encI _ _ _ _ _
theorem ori (rd rs1 : Reg) (imm : Word) : Statement (.ori rd rs1 imm) := opcode_encI _ _ _ _ _
theorem andi (rd rs1 : Reg) (imm : Word) : Statement (.andi rd rs1 imm) := opcode_encI _ _ _ _ _
theorem slli (rd rs1 : Reg) (imm : Word) : Statement (.slli rd rs1 imm) := opcode_encI _ _ _ _ _
theorem srli (rd rs1 : Reg) (shamt : BitVec 5) : Statement (.srli rd rs1 shamt) := opcode_encR _ _ _ _ _ _
theorem srai (rd rs1 : Reg) (shamt : BitVec 5) : Statement (.srai rd rs1 shamt) := opcode_encR _ _ _ _ _ _
theorem add (rd rs1 rs2 : Reg) : Statement (.add rd rs1 rs2) := opcode_encR _ _ _ _ _ _
theorem sub (rd rs1 rs2 : Reg) : Statement (.sub rd rs1 rs2) := opcode_encR _ _ _ _ _ _
theorem sll (rd rs1 rs2 : Reg) (funct7 : BitVec 7) : Statement (.sll rd rs1 rs2 funct7) := opcode_encR _ _ _ _ _ _
theorem slt (rd rs1 rs2 : Reg) (funct7 : BitVec 7) : Statement (.slt rd rs1 rs2 funct7) := opcode_encR _ _ _ _ _ _
theorem sltu (rd rs1 rs2 : Reg) (funct7 : BitVec 7) : Statement (.sltu rd rs1 rs2 funct7) := opcode_encR _ _ _ _ _ _
theorem xor (rd rs1 rs2 : Reg) (funct7 : BitVec 7) : Statement (.xor rd rs1 rs2 funct7) := opcode_encR _ _ _ _ _ _
theorem srl (rd rs1 rs2 : Reg) : Statement (.srl rd rs1 rs2) := opcode_encR _ _ _ _ _ _
theorem sra (rd rs1 rs2 : Reg) : Statement (.sra rd rs1 rs2) := opcode_encR _ _ _ _ _ _
theorem or (rd rs1 rs2 : Reg) (funct7 : BitVec 7) : Statement (.or rd rs1 rs2 funct7) := opcode_encR _ _ _ _ _ _
theorem and (rd rs1 rs2 : Reg) (funct7 : BitVec 7) : Statement (.and rd rs1 rs2 funct7) := opcode_encR _ _ _ _ _ _
theorem lui (rd : Reg) (imm : Word) : Statement (.lui rd imm) := opcode_encU _ _ _
theorem auipc (rd : Reg) (imm : Word) : Statement (.auipc rd imm) := opcode_encU _ _ _
theorem jal (rd : Reg) (imm : Word) : Statement (.jal rd imm) := opcode_encJ _ _ _
theorem jalr (rd rs1 : Reg) (imm : Word) (funct3 : BitVec 3) : Statement (.jalr rd rs1 imm funct3) := opcode_encI _ _ _ _ _
theorem beq (rs1 rs2 : Reg) (imm : Word) : Statement (.beq rs1 rs2 imm) := opcode_encB _ _ _ _ _
theorem bne (rs1 rs2 : Reg) (imm : Word) : Statement (.bne rs1 rs2 imm) := opcode_encB _ _ _ _ _
theorem blt (rs1 rs2 : Reg) (imm : Word) : Statement (.blt rs1 rs2 imm) := opcode_encB _ _ _ _ _
theorem bge (rs1 rs2 : Reg) (imm : Word) : Statement (.bge rs1 rs2 imm) := opcode_encB _ _ _ _ _
theorem bltu (rs1 rs2 : Reg) (imm : Word) : Statement (.bltu rs1 rs2 imm) := opcode_encB _ _ _ _ _
theorem bgeu (rs1 rs2 : Reg) (imm : Word) : Statement (.bgeu rs1 rs2 imm) := opcode_encB _ _ _ _ _
theorem lb (rd rs1 : Reg) (imm : Word) : Statement (.lb rd rs1 imm) := opcode_encI _ _ _ _ _
theorem lh (rd rs1 : Reg) (imm : Word) : Statement (.lh rd rs1 imm) := opcode_encI _ _ _ _ _
theorem lw (rd rs1 : Reg) (imm : Word) : Statement (.lw rd rs1 imm) := opcode_encI _ _ _ _ _
theorem lbu (rd rs1 : Reg) (imm : Word) : Statement (.lbu rd rs1 imm) := opcode_encI _ _ _ _ _
theorem lhu (rd rs1 : Reg) (imm : Word) : Statement (.lhu rd rs1 imm) := opcode_encI _ _ _ _ _
theorem sb (rs2 rs1 : Reg) (imm : Word) : Statement (.sb rs2 rs1 imm) := opcode_encS _ _ _ _ _
theorem sh (rs2 rs1 : Reg) (imm : Word) : Statement (.sh rs2 rs1 imm) := opcode_encS _ _ _ _ _
theorem sw (rs2 rs1 : Reg) (imm : Word) : Statement (.sw rs2 rs1 imm) := opcode_encS _ _ _ _ _
theorem ecall : Statement (.ecall) := opcode_encI _ _ _ _ _
theorem ebreak : Statement (.ebreak) := opcode_encI _ _ _ _ _
theorem fence (rd rs1 : Reg) (imm : Word) : Statement (.fence rd rs1 imm) := opcode_encI _ _ _ _ _

end Fields

end Sys2Proof.Laws
end

