-- ==== Sys2Proof/Laws/State.lean ====
section
/-! SUPPORT. What each update of the state leaves in each field, and how registers read back. -/

namespace Sys2Proof.Machine

namespace State

/-! ### Registers -/

@[simp] theorem x_zero (s : State) : s.x 0#5 = 0#32 := by simp [State.x]

@[simp] theorem setX_zero (s : State) (v : Word) : s.setX 0#5 v = s := by simp [State.setX]

/-- A register reads back the value written to it, x0 apart; the others read as before. -/
@[simp] theorem x_setX (s : State) (rd r : Reg) (v : Word) :
    (s.setX rd v).x r = if r = rd ∧ r ≠ 0 then v else s.x r := by
  by_cases hr : r = 0
  · simp [State.x, hr]
  · by_cases hd : rd = 0
    · have : r ≠ rd := fun h => hr (h.trans hd)
      simp [State.setX, hd]
    · have hne : rd.toNat = r.toNat ↔ r = rd := by rw [eq_comm, BitVec.toNat_inj]
      by_cases he : r = rd
      · subst he
        simp only [State.x, State.setX, ne_eq, hd, not_false_iff, and_self, if_true]
        exact Vector.getElem_set_self _
      · have h' : ¬ rd.toNat = r.toNat := fun h => he (hne.mp h)
        simp only [State.x, State.setX, if_neg hr, if_neg hd, he, false_and, if_false]
        exact Vector.getElem_set_ne _ _ h'

/-- The slot of x0 is never written. -/
@[simp] theorem setX_slot_zero (s : State) (rd : Reg) (v : Word) :
    (s.setX rd v).regs[0] = s.regs[0] := by
  by_cases hd : rd = 0
  · simp [State.setX, hd]
  · have h' : ¬ rd.toNat = 0 := fun h => hd (BitVec.eq_of_toNat_eq (by simpa using h))
    simp only [State.setX, if_neg hd]
    exact Vector.getElem_set_ne _ _ h'

@[simp] theorem setX_pc (s : State) (rd : Reg) (v : Word) : (s.setX rd v).pc = s.pc := by
  unfold State.setX; split <;> rfl
@[simp] theorem setX_status (s : State) (rd : Reg) (v : Word) : (s.setX rd v).status = s.status := by
  unfold State.setX; split <;> rfl
@[simp] theorem setX_mem (s : State) (rd : Reg) (v : Word) : (s.setX rd v).mem = s.mem := by
  unfold State.setX; split <;> rfl
@[simp] theorem setX_io (s : State) (rd : Reg) (v : Word) : (s.setX rd v).io = s.io := by
  unfold State.setX; split <;> rfl
@[simp] theorem setX_cfg (s : State) (rd : Reg) (v : Word) : (s.setX rd v).cfg = s.cfg := by
  unfold State.setX; split <;> rfl

/-! ### The pc -/

@[simp] theorem jump_pc (s : State) (t : Word) : (s.jump t).pc = t := rfl
@[simp] theorem jump_regs (s : State) (t : Word) : (s.jump t).regs = s.regs := rfl
@[simp] theorem jump_x (s : State) (t : Word) (r : Reg) : (s.jump t).x r = s.x r := rfl
@[simp] theorem jump_status (s : State) (t : Word) : (s.jump t).status = s.status := rfl
@[simp] theorem jump_mem (s : State) (t : Word) : (s.jump t).mem = s.mem := rfl
@[simp] theorem jump_io (s : State) (t : Word) : (s.jump t).io = s.io := rfl
@[simp] theorem jump_cfg (s : State) (t : Word) : (s.jump t).cfg = s.cfg := rfl

@[simp] theorem advance_pc (s : State) : s.advance.pc = s.pc + 4 := rfl
@[simp] theorem advance_regs (s : State) : s.advance.regs = s.regs := rfl
@[simp] theorem advance_x (s : State) (r : Reg) : s.advance.x r = s.x r := rfl
@[simp] theorem advance_status (s : State) : s.advance.status = s.status := rfl
@[simp] theorem advance_mem (s : State) : s.advance.mem = s.mem := rfl
@[simp] theorem advance_io (s : State) : s.advance.io = s.io := rfl
@[simp] theorem advance_cfg (s : State) : s.advance.cfg = s.cfg := rfl

/-! ### Memory -/

@[simp] theorem withMem_mem (s : State) (m : Memory) : (s.withMem m).mem = m := rfl
@[simp] theorem withMem_regs (s : State) (m : Memory) : (s.withMem m).regs = s.regs := rfl
@[simp] theorem withMem_x (s : State) (m : Memory) (r : Reg) : (s.withMem m).x r = s.x r := rfl
@[simp] theorem withMem_pc (s : State) (m : Memory) : (s.withMem m).pc = s.pc := rfl
@[simp] theorem withMem_status (s : State) (m : Memory) : (s.withMem m).status = s.status := rfl
@[simp] theorem withMem_io (s : State) (m : Memory) : (s.withMem m).io = s.io := rfl
@[simp] theorem withMem_cfg (s : State) (m : Memory) : (s.withMem m).cfg = s.cfg := rfl

/-! ### Bus accesses -/

@[simp] theorem afterRead_regs (s : State) (a : Word) (n : Width) : (s.afterRead a n).regs = s.regs := rfl
@[simp] theorem afterRead_x (s : State) (a : Word) (n : Width) (r : Reg) : (s.afterRead a n).x r = s.x r := rfl
@[simp] theorem afterRead_pc (s : State) (a : Word) (n : Width) : (s.afterRead a n).pc = s.pc := rfl
@[simp] theorem afterRead_status (s : State) (a : Word) (n : Width) : (s.afterRead a n).status = s.status := rfl
@[simp] theorem afterRead_mem (s : State) (a : Word) (n : Width) : (s.afterRead a n).mem = s.mem := rfl
@[simp] theorem afterRead_io (s : State) (a : Word) (n : Width) :
    (s.afterRead a n).io = ioAfterRead s.cfg s.io a n := rfl
@[simp] theorem afterRead_cfg (s : State) (a : Word) (n : Width) : (s.afterRead a n).cfg = s.cfg := rfl

@[simp] theorem afterFetch_regs (s : State) : s.afterFetch.regs = s.regs := rfl
@[simp] theorem afterFetch_x (s : State) (r : Reg) : s.afterFetch.x r = s.x r := rfl
@[simp] theorem afterFetch_pc (s : State) : s.afterFetch.pc = s.pc := rfl
@[simp] theorem afterFetch_status (s : State) : s.afterFetch.status = s.status := rfl
@[simp] theorem afterFetch_mem (s : State) : s.afterFetch.mem = s.mem := rfl
@[simp] theorem afterFetch_io (s : State) : s.afterFetch.io = ioAfterRead s.cfg s.io s.pc .four := rfl
@[simp] theorem afterFetch_cfg (s : State) : s.afterFetch.cfg = s.cfg := rfl

@[simp] theorem afterWrite_regs (s : State) (m : Memory) (a : Word) (n : Width) (v : Word) :
    (s.afterWrite m a n v).regs = s.regs := rfl
@[simp] theorem afterWrite_x (s : State) (m : Memory) (a : Word) (n : Width) (v : Word) (r : Reg) :
    (s.afterWrite m a n v).x r = s.x r := rfl
@[simp] theorem afterWrite_pc (s : State) (m : Memory) (a : Word) (n : Width) (v : Word) :
    (s.afterWrite m a n v).pc = s.pc := rfl
@[simp] theorem afterWrite_status (s : State) (m : Memory) (a : Word) (n : Width) (v : Word) :
    (s.afterWrite m a n v).status = s.status := rfl
@[simp] theorem afterWrite_mem (s : State) (m : Memory) (a : Word) (n : Width) (v : Word) :
    (s.afterWrite m a n v).mem = m := rfl
@[simp] theorem afterWrite_io (s : State) (m : Memory) (a : Word) (n : Width) (v : Word) :
    (s.afterWrite m a n v).io = ioAfterWrite s.cfg s.io a n v := rfl
@[simp] theorem afterWrite_cfg (s : State) (m : Memory) (a : Word) (n : Width) (v : Word) :
    (s.afterWrite m a n v).cfg = s.cfg := rfl

/-! ### Retiring -/

@[simp] theorem retire_x (s : State) (rd r : Reg) (v : Word) :
    (s.retire rd v).x r = if r = rd ∧ r ≠ 0 then v else s.x r := by simp [State.retire]
@[simp] theorem retire_slot_zero (s : State) (rd : Reg) (v : Word) :
    (s.retire rd v).regs[0] = s.regs[0] := by simp [State.retire]
@[simp] theorem retire_pc (s : State) (rd : Reg) (v : Word) : (s.retire rd v).pc = s.pc + 4 := by
  simp [State.retire]
@[simp] theorem retire_status (s : State) (rd : Reg) (v : Word) : (s.retire rd v).status = s.status := by
  simp [State.retire]
@[simp] theorem retire_mem (s : State) (rd : Reg) (v : Word) : (s.retire rd v).mem = s.mem := by
  simp [State.retire]
@[simp] theorem retire_io (s : State) (rd : Reg) (v : Word) : (s.retire rd v).io = s.io := by
  simp [State.retire]
@[simp] theorem retire_cfg (s : State) (rd : Reg) (v : Word) : (s.retire rd v).cfg = s.cfg := by
  simp [State.retire]

/-! ### Stops -/

@[simp] theorem raise_status (s : State) (why : Stop) : (s.raise why).status = .stopped why := rfl
@[simp] theorem raise_regs (s : State) (why : Stop) : (s.raise why).regs = s.regs := rfl
@[simp] theorem raise_x (s : State) (why : Stop) (r : Reg) : (s.raise why).x r = s.x r := rfl
@[simp] theorem raise_pc (s : State) (why : Stop) : (s.raise why).pc = s.pc := rfl
@[simp] theorem raise_mem (s : State) (why : Stop) : (s.raise why).mem = s.mem := rfl
@[simp] theorem raise_io (s : State) (why : Stop) : (s.raise why).io = s.io := rfl
@[simp] theorem raise_cfg (s : State) (why : Stop) : (s.raise why).cfg = s.cfg := rfl

end State

/-! ### Placing a word -/

@[simp] theorem placeWord_pc (s : State) (w : Word) : (placeWord s w).pc = s.pc := rfl
@[simp] theorem placeWord_regs (s : State) (w : Word) : (placeWord s w).regs = s.regs := rfl
@[simp] theorem placeWord_status (s : State) (w : Word) : (placeWord s w).status = .running := rfl
@[simp] theorem placeWord_io (s : State) (w : Word) : (placeWord s w).io = s.io := rfl
@[simp] theorem placeWord_mem (s : State) (w : Word) :
    (placeWord s w).mem = s.mem.writeBytes s.pc.toNat (bytesOfWord w) := rfl

/-! ### What claims say, from the updates -/

/-- A stop is precise: `raise` writes the status alone. -/
theorem raise_stoppedPrecisely (s : State) (why : Stop) : StoppedPrecisely s (s.raise why) why :=
  ⟨rfl, fun _ => rfl, rfl, fun _ => rfl, rfl, rfl⟩

/-- Retiring writes x[rd] and advances the pc, nothing else. -/
theorem retire_wroteReg (s : State) (rd : Reg) (v : Word) :
    WroteReg s (s.retire rd v) rd v (s.pc + 4) :=
  ⟨fun r => State.retire_x s rd r v, State.retire_pc s rd v, fun a => by rw [State.retire_mem],
   State.retire_io s rd v, State.retire_status s rd v, State.retire_cfg s rd v⟩

/-- Every general register of the snapshot is the value the accessor reads (R33). -/
theorem observe_reg (s : State) (i : Fin 32) : (observe s).regs[i] = s.x (BitVec.ofFin i) := by
  simp [observe]

end Sys2Proof.Machine
end

