-- ==== Sys2Proof/Laws/Step.lean ====
section
/-! SUPPORT. What one instruction and one step can do, said once. -/

namespace Sys2Proof.Machine

/-- Everything the execute phase of an instruction can answer. -/
inductive Effect (i : Instr) (s : State) : Result → Prop where
  /-- A straight-line instruction with a register result. -/
  | retires (rd : Reg) (v : Word) (hd : destOf i = some rd) (hc : transfersControl i = false)
      (hs : storesBytes i = false) : Effect i s (.next (s.retire rd v))
  /-- A load that the bus completes. -/
  | loads (addr : Word) (n : Width) (w : Word) (rd : Reg) (v : Word) (hd : destOf i = some rd)
      (hc : transfersControl i = false) (hs : storesBytes i = false) (ha : accessesData i = true)
      (hl : s.cfg.lsEnable = true) (hr : memRead s.cfg s.mem s.io addr n = .ok w) :
      Effect i s (.next ((s.afterRead addr n).retire rd v))
  /-- A jump. -/
  | links (rd : Reg) (t : Word) (hd : destOf i = some rd) (hc : transfersControl i = true)
      (hs : storesBytes i = false) : Effect i s (.next ((s.setX rd (linkAddr s)).jump t))
  /-- A branch, taken or not. -/
  | branches (t : Word) (hd : destOf i = none) (hc : transfersControl i = true)
      (hs : storesBytes i = false) : Effect i s (.next (s.jump t))
  /-- A store that the bus completes. -/
  | stores (addr : Word) (n : Width) (v : Word) (m : Memory) (hd : destOf i = none)
      (hc : transfersControl i = false) (hs : storesBytes i = true) (ha : accessesData i = true)
      (hl : s.cfg.lsEnable = true) (hw : memWrite s.cfg s.mem s.io addr n v = .done m) :
      Effect i s (.next (s.afterWrite m addr n v).advance)
  /-- A store that the bus fails. -/
  | storeFails (addr : Word) (n : Width) (v : Word) (f : BusFailure) (m : Memory)
      (hc : transfersControl i = false) (hs : storesBytes i = true) (hl : s.cfg.lsEnable = true)
      (hw : memWrite s.cfg s.mem s.io addr n v = .failed f m) :
      Effect i s (.next ((s.withMem m).raise (stopOf .store f)))
  /-- A load that the bus fails. -/
  | loadFails (addr : Word) (n : Width) (f : BusFailure) (hc : transfersControl i = false)
      (hs : storesBytes i = false) (hl : s.cfg.lsEnable = true)
      (hr : memRead s.cfg s.mem s.io addr n = .error f) : Effect i s (.next (s.raise (stopOf .load f)))
  /-- An instruction with no execute path in this configuration: its word is recorded. -/
  | noPath (hc : transfersControl i = false) : Effect i s (.next (s.raise (.dispatchError (encode i))))

theorem load_effect {i : Instr} {rd rs1 : Reg} {imm : Word} {n : Width} {ext : Word → Word} (s : State)
    (hd : destOf i = some rd) (hc : transfersControl i = false) (hs : storesBytes i = false)
    (ha : accessesData i = true) : Effect i s (load i rd rs1 imm n ext s) := by
  unfold load
  split
  · next hl =>
    split
    · next w hr => exact .loads _ n w rd _ hd hc hs ha hl hr
    · next f hr => exact .loadFails _ n f hc hs hl hr
  · exact .noPath hc

theorem store_effect {i : Instr} {rs2 rs1 : Reg} {imm : Word} {n : Width} (s : State)
    (hd : destOf i = none) (hc : transfersControl i = false) (hs : storesBytes i = true)
    (ha : accessesData i = true) : Effect i s (store i rs2 rs1 imm n s) := by
  unfold store
  split
  · next hl =>
    split
    · next m hw => exact .stores _ n _ m hd hc hs ha hl hw
    · next f m hw => exact .storeFails _ n _ f m hc hs hl hw
  · exact .noPath hc

theorem branch_effect {i : Instr} {cmp : Cmp} {rs1 rs2 : Reg} {imm : Word} (s : State)
    (hd : destOf i = none) (hc : transfersControl i = true) (hs : storesBytes i = false) :
    Effect i s (branch cmp rs1 rs2 imm s) := by
  unfold branch
  split
  · exact .branches _ hd hc hs
  · exact .branches _ hd hc hs

/-- The word ECALL records is its encoding. -/
theorem exec_ecall (s : State) : exec .ecall s = .next (s.raise (.dispatchError (encode .ecall))) := by
  rw [show encode .ecall = 0x00000073#32 by decide]; rfl

/-- The word EBREAK records is its encoding. -/
theorem exec_ebreak (s : State) : exec .ebreak s = .next (s.raise (.dispatchError (encode .ebreak))) := by
  rw [show encode .ebreak = 0x00100073#32 by decide]; rfl

/-- The effect of every instruction is one of these. -/
theorem exec_effect (i : Instr) (s : State) : Effect i s (exec i s) := by
  cases i
  case jal => exact .links _ _ rfl rfl rfl
  case jalr => exact .links _ _ rfl rfl rfl
  case beq => exact branch_effect s rfl rfl rfl
  case bne => exact branch_effect s rfl rfl rfl
  case blt => exact branch_effect s rfl rfl rfl
  case bge => exact branch_effect s rfl rfl rfl
  case bltu => exact branch_effect s rfl rfl rfl
  case bgeu => exact branch_effect s rfl rfl rfl
  case lb => exact load_effect s rfl rfl rfl rfl
  case lh => exact load_effect s rfl rfl rfl rfl
  case lw => exact load_effect s rfl rfl rfl rfl
  case lbu => exact load_effect s rfl rfl rfl rfl
  case lhu => exact load_effect s rfl rfl rfl rfl
  case sb => exact store_effect s rfl rfl rfl rfl
  case sh => exact store_effect s rfl rfl rfl rfl
  case sw => exact store_effect s rfl rfl rfl rfl
  case ecall => rw [exec_ecall]; exact .noPath rfl
  case ebreak => rw [exec_ebreak]; exact .noPath rfl
  case fence => exact .noPath rfl
  all_goals exact .retires _ _ rfl rfl rfl

/-- The execute phase of every instruction answers a next state. -/
theorem exec_next (i : Instr) (s : State) : ∃ t, exec i s = .next t := by
  have h := exec_effect i s
  generalize exec i s = r at h
  cases h <;> exact ⟨_, rfl⟩

/-- A bus failure never stops the core as the normal end does. -/
theorem stopOf_ne_pcOut (kind : AccessKind) (f : BusFailure) (pc : Word) : stopOf kind f ≠ .pcOut pc := by
  cases f <;> simp [stopOf]

/-- A fetch that no peripheral answers leaves the state as it is. -/
theorem afterFetch_of_not_peripheral {s : State}
    (h : ∀ d, findDevice s.cfg.devices s.pc .four = some d → d.kind = .ram) : s.afterFetch = s := by
  simp only [State.afterFetch, State.afterRead, ioAfterRead_of_not_peripheral h]

/-- Everything one cycle can answer, in the order of the tests (R130, R291). -/
theorem cycle_cases (s : State) :
    (inImage s.cfg s.pc = false ∧ cycle s = .next (s.raise (.pcOut s.pc))) ∨
    (inImage s.cfg s.pc = true ∧
      ((∃ f, memRead s.cfg s.mem s.io s.pc .four = .error f ∧ cycle s = .next (s.raise (stopOf .fetch f))) ∨
       (∃ w, memRead s.cfg s.mem s.io s.pc .four = .ok w ∧
         ((decodeWord s.cfg.strictDecode w = .error .unrecognisedOpcode ∧
            cycle s = .next (s.afterFetch.raise (.decodeError w))) ∨
          (decodeWord s.cfg.strictDecode w = .error .noExecutePath ∧
            cycle s = .next (s.afterFetch.raise (.dispatchError w))) ∨
          (∃ i, decodeWord s.cfg.strictDecode w = .ok i ∧ cycle s = exec i s.afterFetch))))) := by
  unfold cycle
  split
  · next h =>
    refine .inr ⟨h, ?_⟩
    split
    · next f hf => exact .inl ⟨f, hf, rfl⟩
    · next w hw =>
      refine .inr ⟨w, hw, ?_⟩
      split
      · next hd => exact .inl ⟨hd, rfl⟩
      · next hd => exact .inr (.inl ⟨hd, rfl⟩)
      · next i hd => exact .inr (.inr ⟨i, hd, rfl⟩)
  · next h => exact .inl ⟨by simpa using h, rfl⟩

/-- A running core's step is its cycle. -/
theorem step_running {s : State} (h : s.status = .running) : step s = cycle s := by
  unfold step; rw [h]

/-- The step of a running core that fetches `w`: what the decoder answers on `w` decides it. -/
theorem step_fetched {s : State} {w : Word} (h : FetchedWord s w) :
    step s = match decodeWord s.cfg.strictDecode w with
      | .error .unrecognisedOpcode => .next (s.afterFetch.raise (.decodeError w))
      | .error .noExecutePath => .next (s.afterFetch.raise (.dispatchError w))
      | .ok i => exec i s.afterFetch := by
  obtain ⟨h1, h2, h3⟩ := h
  rw [step_running h1]
  cases hd : decodeWord s.cfg.strictDecode w with
  | error r => cases r <;> simp [cycle, h2, h3, hd]
  | ok i => simp [cycle, h2, h3, hd]

end Sys2Proof.Machine
end

