-- ==== Sys2Proof/Tests/Slice0.lean ====
section
/-! SUPPORT. The smoke test of WellFormed, the decoding of words written out field by field, one-step tests
and the witnesses of the obligations' hypotheses.

Expected values come from the spec: V-… names a vector of 95_test_vectors.md, the others are worked out from
the rule cited. -/

namespace Sys2Proof.Tests

open Sys2Proof.Machine

/-! ### Helpers -/

/-- The reset state with some registers set. -/
def start (xs : List (Reg × Word)) : State := xs.foldl (fun s p => s.setX p.1 p.2) State.reset

/-- The same with LS_ENABLE true and some bytes at 0x8000_0100 upward. -/
def lsStart (xs : List (Reg × Word)) (bytes : List Byte) : State :=
  { start xs with
    cfg := { Config.default with lsEnable := true }
    mem := Memory.writeBytes [] 0x80000100 bytes }

/-- The same state with STRICT_DECODE true. -/
def strictly (s : State) : State := { s with cfg := { s.cfg with strictDecode := true } }

/-- One step of the state with a word placed at its pc. -/
def run (s : State) (w : Word) : Result := step (placeWord s w)

/-- The result is a next state with this property. -/
def nextIs (r : Result) (p : State → Bool) : Bool :=
  match r with
  | .next t => p t
  | _ => false

/-- One step leaves `v` in register `r` and the pc at `pc'`. -/
def gives (s : State) (w : Word) (r : Reg) (v pc' : Word) : Bool :=
  nextIs (run s w) fun t => decide (t.x r = v ∧ t.pc = pc' ∧ t.status = .running)

/-- One step stops with this cause; the registers and the pc are as before. -/
def stops (s : State) (w : Word) (why : Stop) : Bool :=
  nextIs (run s w) fun t => decide (t.status = .stopped why ∧ t.pc = s.pc ∧ t.regs = s.regs)

theorem of_nextIs {r : Result} {p : State → Bool} (h : nextIs r p = true) :
    ∃ t, r = .next t ∧ p t = true := by
  cases r with
  | next t => exact ⟨t, rfl, h⟩
  | fault _ => cases h
  | refused _ => cases h

/-! ### WellFormed refuses an ill-formed term at each of its checks -/

theorem test_wf_imm12_high : (Instr.addi 1 0 2048).wf false = false := by decide
theorem test_wf_imm12_low : (Instr.sw 6 5 (-2049)).wf false = false := by decide
theorem test_wf_branch_odd : (Instr.beq 1 2 3).wf false = false := by decide
theorem test_wf_branch_range : (Instr.bne 1 2 4096).wf false = false := by decide
theorem test_wf_upper : (Instr.lui 1 0x00001800).wf false = false := by decide
theorem test_wf_jump_odd : (Instr.jal 1 1).wf false = false := by decide
theorem test_wf_jump_range : (Instr.jal 1 (-1048578)).wf false = false := by decide
theorem test_wf_strict_funct7 : (Instr.sll 1 2 3 0b0100000).wf true = false := by decide
theorem test_wf_strict_slli : (Instr.slli 1 2 0x401).wf true = false := by decide
theorem test_wf_strict_jalr : (Instr.jalr 1 2 0 0b010).wf true = false := by decide

/-! ### Decoding: words written out field by field in the layouts of R92 and R170 to R274 -/

theorem test_decode_op_imm :
    decodeWord false (5#12 ++ 0#5 ++ 0b000#3 ++ 16#5 ++ 0b0010011#7) = .ok (.addi 16 0 5) ∧
    decodeWord false (0xFFF#12 ++ 6#5 ++ 0b010#3 ++ 5#5 ++ 0b0010011#7) = .ok (.slti 5 6 (-1)) ∧
    decodeWord false (1#12 ++ 6#5 ++ 0b011#3 ++ 5#5 ++ 0b0010011#7) = .ok (.sltiu 5 6 1) ∧
    decodeWord false (0xFFF#12 ++ 6#5 ++ 0b100#3 ++ 5#5 ++ 0b0010011#7) = .ok (.xori 5 6 (-1)) ∧
    decodeWord false (0x0F0#12 ++ 6#5 ++ 0b110#3 ++ 5#5 ++ 0b0010011#7) = .ok (.ori 5 6 0xF0) ∧
    decodeWord false (0x7FF#12 ++ 6#5 ++ 0b111#3 ++ 5#5 ++ 0b0010011#7) = .ok (.andi 5 6 0x7FF) := by
  decide

theorem test_decode_shift_imm :
    decodeWord false (0#7 ++ 31#5 ++ 5#5 ++ 0b001#3 ++ 6#5 ++ 0b0010011#7) = .ok (.slli 6 5 31) ∧
    decodeWord false (0#7 ++ 4#5 ++ 6#5 ++ 0b101#3 ++ 7#5 ++ 0b0010011#7) = .ok (.srli 7 6 4) ∧
    decodeWord false (0b0100000#7 ++ 4#5 ++ 6#5 ++ 0b101#3 ++ 28#5 ++ 0b0010011#7) =
      .ok (.srai 28 6 4) := by
  decide

theorem test_decode_op :
    decodeWord false (0#7 ++ 7#5 ++ 6#5 ++ 0b000#3 ++ 5#5 ++ 0b0110011#7) = .ok (.add 5 6 7) ∧
    decodeWord false (0b0100000#7 ++ 7#5 ++ 6#5 ++ 0b000#3 ++ 5#5 ++ 0b0110011#7) = .ok (.sub 5 6 7) ∧
    decodeWord false (0#7 ++ 7#5 ++ 6#5 ++ 0b001#3 ++ 5#5 ++ 0b0110011#7) = .ok (.sll 5 6 7 0) ∧
    decodeWord false (0#7 ++ 7#5 ++ 6#5 ++ 0b010#3 ++ 5#5 ++ 0b0110011#7) = .ok (.slt 5 6 7 0) ∧
    decodeWord false (0#7 ++ 7#5 ++ 6#5 ++ 0b011#3 ++ 5#5 ++ 0b0110011#7) = .ok (.sltu 5 6 7 0) ∧
    decodeWord false (0#7 ++ 7#5 ++ 6#5 ++ 0b100#3 ++ 5#5 ++ 0b0110011#7) = .ok (.xor 5 6 7 0) ∧
    decodeWord false (0#7 ++ 7#5 ++ 6#5 ++ 0b101#3 ++ 5#5 ++ 0b0110011#7) = .ok (.srl 5 6 7) ∧
    decodeWord false (0b0100000#7 ++ 7#5 ++ 6#5 ++ 0b101#3 ++ 5#5 ++ 0b0110011#7) = .ok (.sra 5 6 7) ∧
    decodeWord false (0#7 ++ 7#5 ++ 6#5 ++ 0b110#3 ++ 5#5 ++ 0b0110011#7) = .ok (.or 5 6 7 0) ∧
    decodeWord false (0#7 ++ 7#5 ++ 6#5 ++ 0b111#3 ++ 5#5 ++ 0b0110011#7) = .ok (.and 5 6 7 0) := by
  decide

theorem test_decode_upper_and_jumps :
    decodeWord false (0xC0000#20 ++ 2#5 ++ 0b0110111#7) = .ok (.lui 2 0xC0000000) ∧
    decodeWord false (0xFFFFF#20 ++ 5#5 ++ 0b0010111#7) = .ok (.auipc 5 0xFFFFF000) ∧
    -- imm[20] | imm[10:1] | imm[11] | imm[19:12] of -16, then of 2048
    decodeWord false (1#1 ++ 0b1111111000#10 ++ 1#1 ++ 0xFF#8 ++ 0#5 ++ 0b1101111#7) =
      .ok (.jal 0 (-16)) ∧
    decodeWord false (0#1 ++ 0#10 ++ 1#1 ++ 0#8 ++ 1#5 ++ 0b1101111#7) = .ok (.jal 1 2048) ∧
    decodeWord false (0xFFC#12 ++ 5#5 ++ 0b000#3 ++ 1#5 ++ 0b1100111#7) = .ok (.jalr 1 5 (-4) 0) := by
  decide

/-- imm[12] | imm[10:5] | rs2 | rs1 | funct3 | imm[4:1] | imm[11] | 1100011. -/
theorem test_decode_branch :
    decodeWord false (0#1 ++ 0#6 ++ 0#5 ++ 3#5 ++ 0b000#3 ++ 0b1000#4 ++ 0#1 ++ 0b1100011#7) =
      .ok (.beq 3 0 16) ∧
    decodeWord false (1#1 ++ 0b111111#6 ++ 0#5 ++ 11#5 ++ 0b001#3 ++ 0b1100#4 ++ 1#1 ++ 0b1100011#7) =
      .ok (.bne 11 0 (-8)) ∧
    decodeWord false (0#1 ++ 0#6 ++ 5#5 ++ 6#5 ++ 0b100#3 ++ 0b0100#4 ++ 0#1 ++ 0b1100011#7) =
      .ok (.blt 6 5 8) ∧
    decodeWord false (0#1 ++ 0#6 ++ 5#5 ++ 6#5 ++ 0b101#3 ++ 0b0100#4 ++ 0#1 ++ 0b1100011#7) =
      .ok (.bge 6 5 8) ∧
    decodeWord false (0#1 ++ 0#6 ++ 6#5 ++ 5#5 ++ 0b110#3 ++ 0b0100#4 ++ 0#1 ++ 0b1100011#7) =
      .ok (.bltu 5 6 8) ∧
    decodeWord false (0#1 ++ 0#6 ++ 6#5 ++ 5#5 ++ 0b111#3 ++ 0b0000#4 ++ 1#1 ++ 0b1100011#7) =
      .ok (.bgeu 5 6 2048) := by
  decide

theorem test_decode_loads_stores :
    decodeWord false (0#12 ++ 5#5 ++ 0b000#3 ++ 7#5 ++ 0b0000011#7) = .ok (.lb 7 5 0) ∧
    decodeWord false (2#12 ++ 5#5 ++ 0b001#3 ++ 29#5 ++ 0b0000011#7) = .ok (.lh 29 5 2) ∧
    decodeWord false (0xFFC#12 ++ 5#5 ++ 0b010#3 ++ 7#5 ++ 0b0000011#7) = .ok (.lw 7 5 (-4)) ∧
    decodeWord false (1#12 ++ 5#5 ++ 0b100#3 ++ 28#5 ++ 0b0000011#7) = .ok (.lbu 28 5 1) ∧
    decodeWord false (1#12 ++ 5#5 ++ 0b101#3 ++ 30#5 ++ 0b0000011#7) = .ok (.lhu 30 5 1) ∧
    -- imm[11:5] | rs2 | rs1 | funct3 | imm[4:0] | 0100011
    decodeWord false (0#7 ++ 6#5 ++ 5#5 ++ 0b000#3 ++ 4#5 ++ 0b0100011#7) = .ok (.sb 6 5 4) ∧
    decodeWord false (0#7 ++ 6#5 ++ 5#5 ++ 0b001#3 ++ 6#5 ++ 0b0100011#7) = .ok (.sh 6 5 6) ∧
    decodeWord false (0b0111111#7 ++ 6#5 ++ 5#5 ++ 0b010#3 ++ 31#5 ++ 0b0100011#7) =
      .ok (.sw 6 5 2047) := by
  decide

theorem test_decode_system :
    decodeWord false (0#12 ++ 0#5 ++ 0b000#3 ++ 0#5 ++ 0b1110011#7) = .ok .ecall ∧
    decodeWord false (1#12 ++ 0#5 ++ 0b000#3 ++ 0#5 ++ 0b1110011#7) = .ok .ebreak ∧
    decodeWord false (0x0FF#12 ++ 0#5 ++ 0b000#3 ++ 0#5 ++ 0b0001111#7) = .ok (.fence 0 0 0xFF) := by
  decide

/-- V-D20 to V-D23: no recognised opcode. V-I19, V-C13, V-Y3, V-Y7: recognised, no execute path. -/
theorem test_decode_rejects :
    decodeWord false 0xFFFFFFFF = .error .unrecognisedOpcode ∧
    decodeWord false 0x00000000 = .error .unrecognisedOpcode ∧
    decodeWord false 0x0000100B = .error .unrecognisedOpcode ∧
    decodeWord false 0x00008082 = .error .unrecognisedOpcode ∧
    decodeWord false 0x02435393 = .error .noExecutePath ∧
    decodeWord false 0x0062A463 = .error .noExecutePath ∧
    decodeWord false 0x30529073 = .error .noExecutePath ∧
    decodeWord false 0x0000100F = .error .noExecutePath := by
  decide

/-- R90: an instruction is four bytes; fewer name none. -/
theorem test_decode_bytes :
    decodeBytes false [0x13, 0x08, 0x50, 0x00, 0x93] = .ok (.addi 16 0 5, [0x93]) ∧
    decodeBytes false [0x13, 0x08, 0x50] = .error .truncated := by
  decide

/-! ### OP-IMM (95_test_vectors.md section 5.1) -/

theorem test_addi : gives (start []) 0xFD800093 1 0xFFFFFFD8 0x80000004 = true := by decide  -- V-I2
theorem test_addi_wraps : gives (start [(5, 0x7FFFFFFF)]) 0x00128293 5 0x80000000 0x80000004 = true := by
  decide  -- V-I3
theorem test_slti : gives (start [(6, 0x80000000)]) 0xFFF32293 5 1 0x80000004 = true := by decide  -- V-I6
theorem test_sltiu : gives (start [(6, 0xFFFFFFFE)]) 0xFFF33293 5 1 0x80000004 = true := by
  decide  -- V-I10
theorem test_sltiu_not : gives (start [(6, 0xFFFFFFFF)]) 0x00133293 5 0 0x80000004 = true := by
  decide  -- V-I9
theorem test_xori : gives (start [(6, 0x12345678)]) 0xFFF34293 5 0xEDCBA987 0x80000004 = true := by
  decide  -- V-I12
theorem test_ori : gives (start [(6, 0x0F0F)]) 0x0F036293 5 0x0FFF 0x80000004 = true := by decide  -- V-I13
theorem test_andi : gives (start [(6, 0xDEADBEEF)]) 0xFF037293 5 0xDEADBEE0 0x80000004 = true := by
  decide  -- V-I15
theorem test_slli : gives (start [(5, 0xFFFFFFFF)]) 0x01F29313 6 0x80000000 0x80000004 = true := by
  decide  -- V-I16
theorem test_srli : gives (start [(6, 0x80000000)]) 0x00435393 7 0x08000000 0x80000004 = true := by
  decide  -- V-I17
theorem test_srai : gives (start [(6, 0x80000000)]) 0x40435E13 28 0xF8000000 0x80000004 = true := by
  decide  -- V-I18
/-- V-I20: the same word in both settings of STRICT_DECODE. -/
theorem test_slli_funct7 :
    gives (start [(5, 3)]) 0x40129313 6 6 0x80000004 = true ∧
    stops (strictly (start [(5, 3)])) 0x40129313 (.dispatchError 0x40129313) = true := by decide
/-- V-I5: a write to x0 is discarded. -/
theorem test_addi_x0 : gives (start []) 0x00500013 0 0 0x80000004 = true := by decide

/-! ### OP (section 5.2) -/

theorem test_add :
    gives (start [(6, 0xFF00FF00), (7, 0x0FF00FF0)]) 0x007302B3 5 0x0EF10EF0 0x80000004 = true := by
  decide  -- V-R1
theorem test_add_same : gives (start [(5, 0x40000001)]) 0x005282B3 5 0x80000002 0x80000004 = true := by
  decide  -- V-R11
theorem test_sub : gives (start [(6, 3), (7, 5)]) 0x407302B3 5 0xFFFFFFFE 0x80000004 = true := by
  decide  -- V-R2
theorem test_sll : gives (start [(6, 1), (7, 35)]) 0x007312B3 5 8 0x80000004 = true := by decide  -- V-R3
theorem test_slt : gives (start [(6, 0xFFFFFFFF), (7, 1)]) 0x007322B3 5 1 0x80000004 = true := by
  decide  -- V-R4
theorem test_sltu : gives (start [(6, 0xFFFFFFFF), (7, 1)]) 0x007332B3 5 0 0x80000004 = true := by
  decide  -- V-R5
theorem test_xor :
    gives (start [(6, 0xFF00FF00), (7, 0x0FF00FF0)]) 0x007342B3 5 0xF0F0F0F0 0x80000004 = true := by
  decide  -- V-R6
theorem test_srl : gives (start [(6, 0x80000000), (7, 31)]) 0x007352B3 5 1 0x80000004 = true := by
  decide  -- V-R7
theorem test_sra : gives (start [(6, 0x80000000), (7, 31)]) 0x407352B3 5 0xFFFFFFFF 0x80000004 = true := by
  decide  -- V-R8
theorem test_or :
    gives (start [(6, 0xFF00FF00), (7, 0x0FF00FF0)]) 0x007362B3 5 0xFFF0FFF0 0x80000004 = true := by
  decide  -- V-R9
theorem test_and :
    gives (start [(6, 0xFF00FF00), (7, 0x0FF00FF0)]) 0x007372B3 5 0x0F000F00 0x80000004 = true := by
  decide  -- V-R10

/-! ### Upper immediates, jumps, branches (sections 5.3 to 5.5) -/

theorem test_lui : gives (start []) 0xC0000137 2 0xC0000000 0x80000004 = true := by decide  -- R210
theorem test_auipc : gives (start []) 0xFFFFF297 5 0x7FFFF000 0x80000004 = true := by decide  -- R211
theorem test_jal :
    gives { start [] with pc := 0x80000008 } 0x00C000EF 1 0x8000000C 0x80000014 = true := by decide  -- R220
/-- V-S9: the jump completes; that its target is outside the image is the next step's business. -/
theorem test_jal_back : gives (start []) 0xFF1FF06F 0 0 0x7FFFFFF0 = true := by decide
theorem test_jalr_same_register :
    gives (start [(5, 0x80000010)]) 0x000282E7 5 0x80000004 0x80000010 = true := by decide  -- V-J7
theorem test_jalr_clears_bit_0 :
    gives (start [(5, 0x80000010)]) 0x003280E7 1 0x80000004 0x80000012 = true := by decide  -- V-J8
theorem test_beq :
    gives (start [(3, 0)]) 0x00018863 16 0 0x80000010 = true ∧
    gives (start [(3, 1)]) 0x00018863 16 0 0x80000004 = true := by decide  -- V-C1, V-C2
theorem test_bne :
    gives (start [(11, 9)]) 0xFE059CE3 11 9 0x7FFFFFF8 = true ∧
    gives (start [(11, 0)]) 0xFE059CE3 25 0 0x80000004 = true := by decide  -- V-C3, V-C4
theorem test_blt :
    gives (start [(6, 0x80000000), (5, 0xFFFFFFFF)]) 0x00534463 8 0 0x80000008 = true := by decide  -- V-C5
theorem test_bge :
    gives (start [(6, 0x80000000), (5, 0xFFFFFFFF)]) 0x00535463 8 0 0x80000004 = true ∧
    gives (start [(6, 7), (5, 7)]) 0x00535463 8 0 0x80000008 = true := by decide  -- V-C6, V-C7
theorem test_bltu :
    gives (start [(5, 0xFFFFFFFF), (6, 0x80000000)]) 0x0062E463 8 0 0x80000004 = true ∧
    gives (start [(5, 0), (6, 1)]) 0x0062E463 8 0 0x80000008 = true := by decide  -- V-C8, V-C9
theorem test_bgeu :
    gives (start [(5, 0xFFFFFFFF), (6, 0x80000000)]) 0x0062F463 8 0 0x80000008 = true := by decide  -- V-C10

/-! ### Loads and stores (section 5.6) -/

/-- x5 = 0x8000_0100, x6 = 0xDEAD_BEEF, bytes EF BE AD DE at 0x8000_0100. -/
def table : State := lsStart [(5, 0x80000100), (6, 0xDEADBEEF)] [0xEF, 0xBE, 0xAD, 0xDE]

theorem test_lb : gives table 0x00028383 7 0xFFFFFFEF 0x80000004 = true := by decide  -- V-L1
theorem test_lbu : gives table 0x0012CE03 28 0x000000BE 0x80000004 = true := by decide  -- V-L2
theorem test_lh : gives table 0x00229E83 29 0xFFFFDEAD 0x80000004 = true := by decide  -- V-L3
theorem test_lhu : gives table 0x0012DF03 30 0x0000ADBE 0x80000004 = true := by decide  -- V-L4
theorem test_lw : gives (table.setX 5 0x80000104) 0xFFC2A383 7 0xDEADBEEF 0x80000004 = true := by
  decide  -- V-L5
theorem test_lw_unmapped :
    stops (table.setX 5 0x87FFFFFD) 0x0002A383 (.busError .load 0x87FFFFFD 4) = true := by decide  -- V-L11
theorem test_sb : nextIs (run table 0x00628223) (fun t =>
    decide (t.mem.read 0x80000104 = 0xEF ∧ t.mem.read 0x80000105 = 0)) = true := by decide  -- V-L8
theorem test_sh : nextIs (run table 0x00629323) (fun t => decide (t.mem.read 0x80000105 = 0 ∧
    t.mem.read 0x80000106 = 0xEF ∧ t.mem.read 0x80000107 = 0xBE ∧ t.mem.read 0x80000108 = 0)) = true := by
  decide  -- V-L9
theorem test_sw : nextIs (run (lsStart [(5, 0x80000100), (6, 0xDEADBEEF)] []) 0x0062A023) (fun t =>
    decide (t.mem.read 0x80000100 = 0xEF ∧ t.mem.read 0x80000101 = 0xBE ∧
      t.mem.read 0x80000102 = 0xAD ∧ t.mem.read 0x80000103 = 0xDE)) = true := by decide  -- V-L7
theorem test_sw_straddles_start :
    stops (table.setX 5 0x7FFFFFFE) 0x0062A023 (.busError .store 0x7FFFFFFE 4) = true := by decide  -- V-L13
/-- R251: with LS_ENABLE false, the default, a load and a store stop the core. -/
theorem test_loads_stores_disabled :
    stops (start []) 0x0002A383 (.dispatchError 0x0002A383) = true ∧
    stops (start []) 0x0062A023 (.dispatchError 0x0062A023) = true := by decide
/-- V-L14, V-E10: no access is attempted where funct3 selects no load. -/
theorem test_load_funct3 : stops (table.setX 5 0x10) 0x0002B383 (.dispatchError 0x0002B383) = true := by
  decide

/-! ### SYSTEM and MISC-MEM (section 5.7), stops (section 7) -/

theorem test_ecall : stops (start []) 0x00000073 (.dispatchError 0x00000073) = true := by decide  -- V-Y1
theorem test_ebreak : stops (start []) 0x00100073 (.dispatchError 0x00100073) = true := by decide  -- V-Y2
theorem test_fence : stops (start []) 0x0FF0000F (.dispatchError 0x0FF0000F) = true := by decide  -- V-Y6
theorem test_decode_error : stops (start []) 0x00000000 (.decodeError 0x00000000) = true := by
  decide  -- V-E3
/-- V-E1: IMAGE_LEN = 0, so the first step is PcOut. -/
theorem test_empty_image :
    nextIs (step State.reset) (fun t => decide (t = State.reset.raise (.pcOut 0x80000000))) = true := by decide
/-- V-E6: RAM_SIZE = 6 with a 6-byte image; the fetch at offset 4 reaches beyond RAM. -/
def ragged : State :=
  let c := { Config.default with ramSize := 6, devices := [⟨0x80000000, 0x80000005, .ram⟩] }
  { powerOn c (Boot.ofImage c [0x13, 0x05, 0x10, 0x00, 0x13, 0x00]) with pc := 0x80000004 }
theorem test_ragged :
    nextIs (step ragged) (fun t => decide (t = ragged.raise (.busError .fetch 0x80000004 4))) = true := by
  decide

/-! ### Units and bus (sections 2, 3, 6) -/

theorem test_ext : sext 12 0xE38 = 0xFFFFFE38 ∧ zext 8 0xE38 = 0x38 := by decide  -- V-S1, V-S2
theorem test_alu_shifts : alu .sll 1 32 = 1 ∧ alu .sra 0x7FFFFFFF 31 = 0 ∧
    alu .sra 0xDEADBEEF 0x24 = 0xFDEADBEE := by decide  -- V-A10, V-A11, V-A8
theorem test_alu_compare : alu .slt 0xFFFFFFFF 1 = 1 ∧ alu .sltu 0xFFFFFFFF 1 = 0 := by decide  -- V-S7
/-- V-M8, V-M9, V-M12, V-M15. -/
theorem test_find_device :
    (findDevice Config.default.devices 0x87FFFFFC .four).isSome = true ∧
    findDevice Config.default.devices 0x87FFFFFD .four = none ∧
    findDevice Config.default.devices 0x7FFFFFFE .four = none ∧
    findDevice [⟨0x1000, 0x1FFF, .peripheral 0⟩, ⟨0x2000, 0x2FFF, .peripheral 1⟩] 0x1FFE .four = none := by
  decide
/-- V-T3: the initial x2 wraps to 0. -/
theorem test_init_x2_wraps :
    (Boot.ofImage { Config.default with ramBase := 0xF8000000 } []).initX2 = 0 := by decide

/-! ### A run's first step from a loaded image (P0, V-S8) -/

theorem test_loaded_image :
    nextIs (step (powerOn Config.default (Boot.ofImage Config.default [0x13, 0x08, 0x50, 0x00])))
      (fun t => decide (t.x 16 = 5 ∧ t.x 2 = 0x88000000 ∧ t.pc = 0x80000004)) = true := by decide

/-! ### Witnesses: states and operands that meet the hypotheses of each obligation

One theorem for each obligation with hypotheses, one conjunct for each clause, at a boundary of its range where
it has one. -/

/-- A state that fetches `w` at its pc: what `FetchedWord` asks, as one test. -/
def fetches (s : State) (w : Word) : Bool :=
  decide (s.status = .running) && inImage s.cfg s.pc &&
    match memRead s.cfg s.mem s.io s.pc .four with
    | .ok v => decide (v = w)
    | .error _ => false

theorem of_fetches {s : State} {w : Word} (h : fetches s w = true) : FetchedWord s w := by
  simp only [fetches, Bool.and_eq_true, decide_eq_true_eq] at h
  obtain ⟨⟨h1, h2⟩, h3⟩ := h
  refine ⟨h1, h2, ?_⟩
  split at h3
  · next hv => rw [hv, of_decide_eq_true h3]
  · cases h3

/-- What `RamAccess` asks, as one test. -/
def ramAccess (s : State) (addr : Word) (n : Width) : Bool :=
  (match findDevice s.cfg.devices addr n with
   | some d => decide (d.kind = .ram)
   | none => false) && (List.range n.bytes).all (fun k => inRam s.cfg (addr.toNat + k))

theorem of_ramAccess {s : State} {addr : Word} {n : Width} (h : ramAccess s addr n = true) :
    RamAccess s addr n := by
  simp only [ramAccess, Bool.and_eq_true, List.all_eq_true, List.mem_range] at h
  refine ⟨?_, h.2⟩
  have h1 := h.1
  split at h1
  · next d hd => exact ⟨d, hd, of_decide_eq_true h1⟩
  · cases h1

-- Words with the opcode, funct3 and funct7 that the instruction statements ask for.
theorem witness_AddiAddsImmediate : HasOpF3 0x00500813 0b0010011 0b000 := ⟨by decide, by decide⟩
theorem witness_SltiSltiuCompareImmediate :
    HasOpF3 0xFFF32293 0b0010011 0b010 ∧ HasOpF3 0x00133293 0b0010011 0b011 :=
  ⟨⟨by decide, by decide⟩, ⟨by decide, by decide⟩⟩
theorem witness_XoriOriAndiBitwise :
    HasOpF3 0xFFF34293 0b0010011 0b100 ∧ HasOpF3 0x0F036293 0b0010011 0b110 ∧
    HasOpF3 0x7FF37293 0b0010011 0b111 :=
  ⟨⟨by decide, by decide⟩, ⟨by decide, by decide⟩, ⟨by decide, by decide⟩⟩
theorem witness_ShiftImmediates :
    HasOpF3 0x40129313 0b0010011 0b001 ∧
    (HasOpF3 0x01F29313 0b0010011 0b001 ∧ field 0x01F29313#32 25 7 = 0) ∧
    (HasOpF3 0x00435393 0b0010011 0b101 ∧ field 0x00435393#32 25 7 = 0b0000000) ∧
    (HasOpF3 0x40435E13 0b0010011 0b101 ∧ field 0x40435E13#32 25 7 = 0b0100000) :=
  ⟨⟨by decide, by decide⟩, ⟨⟨by decide, by decide⟩, by decide⟩,
   ⟨⟨by decide, by decide⟩, by decide⟩, ⟨⟨by decide, by decide⟩, by decide⟩⟩
theorem witness_AddSubWrap :
    (HasOpF3 0x007302B3 0b0110011 0b000 ∧ field 0x007302B3#32 25 7 = 0b0000000) ∧
    (HasOpF3 0x407302B3 0b0110011 0b000 ∧ field 0x407302B3#32 25 7 = 0b0100000) :=
  ⟨⟨⟨by decide, by decide⟩, by decide⟩, ⟨⟨by decide, by decide⟩, by decide⟩⟩
theorem witness_ShiftsByLowFiveBits :
    (HasOpF3 0x007312B3 0b0110011 0b001 ∧ field 0x007312B3#32 25 7 = 0) ∧
    (HasOpF3 0x007352B3 0b0110011 0b101 ∧ field 0x007352B3#32 25 7 = 0b0000000) ∧
    (HasOpF3 0x407352B3 0b0110011 0b101 ∧ field 0x407352B3#32 25 7 = 0b0100000) :=
  ⟨⟨⟨by decide, by decide⟩, by decide⟩, ⟨⟨by decide, by decide⟩, by decide⟩,
   ⟨⟨by decide, by decide⟩, by decide⟩⟩
theorem witness_SltSltuCompare :
    (HasOpF3 0x007322B3 0b0110011 0b010 ∧ field 0x007322B3#32 25 7 = 0) ∧
    (HasOpF3 0xFE7332B3 0b0110011 0b011 ∧ field 0xFE7332B3#32 25 7 ≠ 0) :=
  ⟨⟨⟨by decide, by decide⟩, by decide⟩, ⟨⟨by decide, by decide⟩, by decide⟩⟩
theorem witness_XorOrAndBitwise :
    HasOpF3 0x007342B3 0b0110011 0b100 ∧ HasOpF3 0x007362B3 0b0110011 0b110 ∧
    HasOpF3 0x007372B3 0b0110011 0b111 ∧ field 0x007372B3#32 25 7 = 0 :=
  ⟨⟨by decide, by decide⟩, ⟨by decide, by decide⟩, ⟨by decide, by decide⟩, by decide⟩
theorem witness_LuiAuipcResults :
    field 0xC0000137#32 0 7 = 0b0110111 ∧ field 0xFFFFF297#32 0 7 = 0b0010111 := by decide
theorem witness_JalLinksAndJumps : field 0xFF1FF06F#32 0 7 = 0b1101111 := by decide
theorem witness_JalrLinksAndJumps :
    (field 0x000280E7#32 0 7 = 0b1100111 ∧ field 0x000280E7#32 12 3 = 0) ∧
    (field 0x0002A0E7#32 0 7 = 0b1100111 ∧ field 0x0002A0E7#32 12 3 ≠ 0) := by decide
theorem witness_BeqBneBranch :
    HasOpF3 0x00018863 0b1100011 0b000 ∧ HasOpF3 0xFE059CE3 0b1100011 0b001 :=
  ⟨⟨by decide, by decide⟩, ⟨by decide, by decide⟩⟩
theorem witness_BltBgeBranchSigned :
    HasOpF3 0x00534463 0b1100011 0b100 ∧ HasOpF3 0x00535463 0b1100011 0b101 :=
  ⟨⟨by decide, by decide⟩, ⟨by decide, by decide⟩⟩
theorem witness_BltuBgeuBranchUnsigned :
    HasOpF3 0x0062E463 0b1100011 0b110 ∧ HasOpF3 0x0062F463 0b1100011 0b111 :=
  ⟨⟨by decide, by decide⟩, ⟨by decide, by decide⟩⟩

/-- The last byte, halfword and word of RAM. -/
theorem witness_LbLbuLoadOneByte :
    (table.setX 5 0x87FFFFFF).cfg.lsEnable = true ∧
    RamAccess (table.setX 5 0x87FFFFFF) ((table.setX 5 0x87FFFFFF).x 5 + 0) .one :=
  ⟨by decide, of_ramAccess (by decide)⟩
theorem witness_LhLhuLoadTwoBytes :
    (table.setX 5 0x87FFFFFF).cfg.lsEnable = true ∧
    RamAccess (table.setX 5 0x87FFFFFF) ((table.setX 5 0x87FFFFFF).x 5 + -1) .two :=
  ⟨by decide, of_ramAccess (by decide)⟩
theorem witness_LwLoadsFourBytes :
    (table.setX 5 0x87FFFFFF).cfg.lsEnable = true ∧
    RamAccess (table.setX 5 0x87FFFFFF) ((table.setX 5 0x87FFFFFF).x 5 + -3) .four :=
  ⟨by decide, of_ramAccess (by decide)⟩
theorem witness_StoresWriteLowBytes :
    table.cfg.lsEnable = true ∧ Memory.wf table.mem = true ∧
    RamAccess table (effAddr table 5 (-256)) .one ∧ RamAccess table (effAddr table 5 (-256)) .two ∧
    RamAccess table (effAddr table 5 (-256)) .four :=
  ⟨by decide, by decide, of_ramAccess (by decide), of_ramAccess (by decide), of_ramAccess (by decide)⟩
theorem witness_LoadStoreWordsDecode :
    HasOpF3 0x00028383 0b0000011 0b000 ∧ HasOpF3 0x00229E83 0b0000011 0b001 ∧
    HasOpF3 0xFFC2A383 0b0000011 0b010 ∧ HasOpF3 0x0012CE03 0b0000011 0b100 ∧
    HasOpF3 0x0012DF03 0b0000011 0b101 ∧ HasOpF3 0x00628223 0b0100011 0b000 ∧
    HasOpF3 0x00629323 0b0100011 0b001 ∧ HasOpF3 0xFE62AE23 0b0100011 0b010 :=
  ⟨⟨by decide, by decide⟩, ⟨by decide, by decide⟩, ⟨by decide, by decide⟩, ⟨by decide, by decide⟩,
   ⟨by decide, by decide⟩, ⟨by decide, by decide⟩, ⟨by decide, by decide⟩, ⟨by decide, by decide⟩⟩
/-- The first address past the last access of each width. -/
theorem witness_UnmappedDataAccessStops :
    table.cfg.lsEnable = true ∧
    findDevice table.cfg.devices (effAddr (table.setX 5 0x88000000) 5 0) .one = none ∧
    findDevice table.cfg.devices (effAddr (table.setX 5 0x88000000) 5 (-1)) .two = none ∧
    findDevice table.cfg.devices (effAddr (table.setX 5 0x88000000) 5 (-3)) .four = none := by decide

/-- A load and a store with a funct3 that selects none, LS_ENABLE false. -/
theorem witness_LoadsStoresDisabledStop :
    (FetchedWord (placeWord State.reset 0x0002F383) 0x0002F383 ∧
      (placeWord State.reset 0x0002F383).cfg.lsEnable = false ∧ field 0x0002F383#32 0 7 = 0b0000011) ∧
    (FetchedWord (placeWord State.reset 0x0062A023) 0x0062A023 ∧
      (placeWord State.reset 0x0062A023).cfg.lsEnable = false ∧ field 0x0062A023#32 0 7 = 0b0100011) :=
  ⟨⟨of_fetches (by decide), by decide, by decide⟩, ⟨of_fetches (by decide), by decide, by decide⟩⟩
theorem witness_SystemWordsStop :
    FetchedWord (placeWord table 0x30529073) 0x30529073 ∧ field 0x30529073#32 0 7 = 0b1110011 :=
  ⟨of_fetches (by decide), by decide⟩
theorem witness_EcallEbreakFenceStop : HasOpF3 0x0FF0000F 0b0001111 0b000 := ⟨by decide, by decide⟩

theorem witness_StepRunsDecodedInstruction :
    FetchedWord (placeWord State.reset 0x00500813) 0x00500813 ∧
    decodeWord (placeWord State.reset 0x00500813).cfg.strictDecode 0x00500813 = .ok (.addi 16 0 5) ∧
    configWf (placeWord State.reset 0x00500813).cfg = true ∧
    findDevice (placeWord State.reset 0x00500813).cfg.devices (placeWord State.reset 0x00500813).pc .four =
      some ⟨0x80000000, 0x87FFFFFF, .ram⟩ :=
  ⟨of_fetches (by decide), by decide, by decide, by decide⟩
theorem witness_StepRunsEncodedBytes :
    (placeWord State.reset 0xFE62AE23).status = .running ∧
    inImage (placeWord State.reset 0xFE62AE23).cfg (placeWord State.reset 0xFE62AE23).pc = true ∧
    RamAccess (placeWord State.reset 0xFE62AE23) (placeWord State.reset 0xFE62AE23).pc .four ∧
    (Instr.sw 6 5 (-4)).wf (placeWord State.reset 0xFE62AE23).cfg.strictDecode = true ∧
    (∀ k, k < 4 → Memory.read (placeWord State.reset 0xFE62AE23).mem
      ((placeWord State.reset 0xFE62AE23).pc.toNat + k) =
      BitVec.ofNat 8 ((encode (.sw 6 5 (-4))).toNat / 2 ^ (8 * k))) :=
  ⟨by decide, by decide, of_ramAccess (by decide), by decide, by decide⟩
theorem witness_FaultExactlyFromStoppedState :
    (State.reset.raise (.pcOut 0x80000000)).status = .stopped (.pcOut 0x80000000) := by decide

/-- A two-word image: the pcs on both sides of its two ends. -/
def twoWords (pc : Word) : State :=
  { powerOn Config.default
      (Boot.ofImage Config.default [0x13, 0x08, 0x50, 0x00, 0x93, 0x08, 0x30, 0x00]) with pc := pc }
theorem witness_PcOutExactlyOutsideImage :
    (twoWords 0x7FFFFFFF).status = .running ∧
    inImage (twoWords 0x7FFFFFFF).cfg 0x7FFFFFFF = false ∧
    inImage (twoWords 0x80000000).cfg 0x80000000 = true ∧
    inImage (twoWords 0x80000007).cfg 0x80000007 = true ∧
    inImage (twoWords 0x80000008).cfg 0x80000008 = false ∧
    (∃ t, step (twoWords 0x80000004) = .next t ∧ (decide (t.x 17 = 3)) = true) :=
  ⟨by decide, by decide, by decide, by decide, by decide, of_nextIs (by decide)⟩
theorem witness_UnmappedFetchStops :
    ragged.status = .running ∧ inImage ragged.cfg ragged.pc = true ∧
    findDevice ragged.cfg.devices ragged.pc .four = none := by decide
theorem witness_UnrecognisedOpcodeStops :
    FetchedWord (placeWord State.reset 0x0000100B) 0x0000100B ∧
    field 0x0000100B#32 0 7 ∉ recognisedOpcodes :=
  ⟨of_fetches (by decide), by decide⟩

/-- A fetched word of each clause of the list, in the setting that the clause asks, and one of no clause. -/
theorem witness_DispatchErrorExactlyListedWords :
    (FetchedWord (placeWord State.reset 0x02435393) 0x02435393 ∧ noPathWord false false 0x02435393) ∧
    noPathWord false false 0x027302B3 ∧ noPathWord false false 0x0062A463 ∧
    noPathWord false false 0x00028383 ∧ noPathWord true false 0x0002B383 ∧
    noPathWord true false 0x0062B023 ∧ noPathWord false false 0x30200073 ∧
    noPathWord false false 0x0000100F ∧ noPathWord false true 0x40129313 ∧
    noPathWord false true 0x027312B3 ∧ noPathWord false true 0x0002A0E7 ∧
    (FetchedWord (placeWord State.reset 0x40129313) 0x40129313 ∧
      field 0x40129313#32 0 7 ∈ recognisedOpcodes ∧ ¬ noPathWord false false 0x40129313) := by
  refine ⟨⟨of_fetches (by decide), ?_⟩, ?_, ?_, ?_, ?_, ?_, ?_, ?_, ?_, ?_, ?_,
    of_fetches (by decide), by decide, ?_⟩ <;> unfold noPathWord <;> decide

/-- A state whose bus registers RAM one byte longer than RAM is: not well formed, so RAM's own check can fail. -/
def tooLong : State :=
  { lsStart [(5, 0x88000000)] [] with
    cfg := { Config.default with lsEnable := true, devices := [⟨0x80000000, 0x88000000, .ram⟩] } }

theorem witness_StopsArePrecise :
    (∃ t, step State.reset = .next t ∧ decide (t.status = .stopped (.pcOut 0x80000000)) = true) ∧
    configWf State.reset.cfg = true ∧
    (∃ t, run tooLong 0x00628023 = .next t ∧
      decide (t.status = .stopped (.deviceFault 0x88000000)) = true) :=
  ⟨of_nextIs (by decide), by decide, of_nextIs (by decide)⟩
theorem witness_StopCauseTellsWhichTestFailed :
    (∃ t, step State.reset = .next t ∧ decide (t.status = .stopped (.pcOut 0x80000000)) = true) ∧
    (∃ t, run State.reset 0 = .next t ∧ decide (t.status = .stopped (.decodeError 0)) = true) ∧
    (∃ t, run State.reset 0x73 = .next t ∧ decide (t.status = .stopped (.dispatchError 0x73)) = true) ∧
    (∃ t, step ragged = .next t ∧
      decide (t.status = .stopped (.busError .fetch 0x80000004 4)) = true) ∧
    (∃ t, run (table.setX 5 0x10) 0x0002A383 = .next t ∧
      decide (t.status = .stopped (.busError .load 0x10 4)) = true) ∧
    (∃ t, run (table.setX 5 0x10) 0x0062A023 = .next t ∧
      decide (t.status = .stopped (.busError .store 0x10 4)) = true) ∧
    (∃ t, run tooLong 0x00628023 = .next t ∧
      decide (t.status = .stopped (.deviceFault 0x88000000)) = true) :=
  ⟨of_nextIs (by decide), of_nextIs (by decide), of_nextIs (by decide), of_nextIs (by decide),
   of_nextIs (by decide), of_nextIs (by decide), of_nextIs (by decide)⟩
theorem witness_RunningCoreAlwaysSteps : State.reset.status = .running := by decide

/-- A bus with one peripheral beside RAM. -/
def withPeripheral : State :=
  { lsStart [(5, 0x1000)] [] with
    cfg := { Config.default with
      lsEnable := true
      devices := [⟨0x80000000, 0x87FFFFFF, .ram⟩, ⟨0x1000, 0x1FFF, .peripheral 7⟩] } }
/-- An image whose range a peripheral registered before RAM covers: the fetch is the peripheral's. -/
def fetchFromPeripheral : State :=
  { State.reset with
    cfg := { Config.default with imageLen := 4, devices := [⟨0x80000000, 0x80000003, .peripheral 3⟩] } }
/-- The first byte, the last halfword and the last word of the peripheral's range; a fetch from one. -/
theorem witness_PeripheralAccessesAreItsReadAndWrite :
    withPeripheral.cfg.lsEnable = true ∧ configWf withPeripheral.cfg = true ∧
    findDevice withPeripheral.cfg.devices (effAddr withPeripheral 5 0) .one =
      some ⟨0x1000, 0x1FFF, .peripheral 7⟩ ∧
    findDevice withPeripheral.cfg.devices (effAddr withPeripheral 5 0xFFE) .two =
      some ⟨0x1000, 0x1FFF, .peripheral 7⟩ ∧
    findDevice withPeripheral.cfg.devices (effAddr withPeripheral 5 0xFFC) .four =
      some ⟨0x1000, 0x1FFF, .peripheral 7⟩ ∧
    fetchFromPeripheral.status = .running ∧
    inImage fetchFromPeripheral.cfg fetchFromPeripheral.pc = true ∧
    findDevice fetchFromPeripheral.cfg.devices fetchFromPeripheral.pc .four =
      some ⟨0x80000000, 0x80000003, .peripheral 3⟩ := by decide
/-- R55, R52: a byte store hands the peripheral the low byte alone. -/
theorem test_peripheral_store_is_masked :
    memWrite withPeripheral.cfg [] [] 0x1003 .one 0xDEADBEEF =
      match Config.peripheralWrite 7 [] 0x1003 1 0xEF with
      | .ok _ => .done []
      | .error a => .failed (.peripheralFailed a) [] := rfl
theorem test_peripheral_access_is_recorded :
    (withPeripheral.afterWrite [] 0x1003 .one 0xDEADBEEF).io = [.write 7 0x1003 1 0xEF] ∧
    (withPeripheral.afterRead 0x1FFC .four).io = [.read 7 0x1FFC 4] ∧
    (withPeripheral.afterRead 0x80000000 .four).io = [] := by decide

theorem witness_OnlyDestinationRegisterChanges :
    (∃ t, exec (.addi 5 5 1) State.reset = .next t ∧ decide (t.x 5 = 1) = true) ∧
    destOf (.addi 5 5 1) ≠ some 6 ∧ destOf (.beq 1 2 8) ≠ some 1 :=
  ⟨of_nextIs (by decide), by decide, by decide⟩
theorem witness_StraightLineAdvancesByFour :
    transfersControl (.addi 5 5 1) = false ∧
    (∃ t, exec (.addi 5 5 1) { State.reset with pc := 0xFFFFFFFC } = .next t ∧
      decide (t.pc = 0) = true) ∧
    transfersControl .ecall = false ∧
    (∃ t, exec .ecall State.reset = .next t ∧ decide (t.pc = 0x80000000) = true) :=
  ⟨by decide, of_nextIs (by decide), by decide, of_nextIs (by decide)⟩
theorem witness_MemoryChangesByStoresAlone :
    (storesBytes (.lw 7 5 0) = false ∧ ∃ t, exec (.lw 7 5 0) table = .next t ∧
      decide (t.x 7 = 0xDEADBEEF) = true) ∧
    (State.reset.cfg.lsEnable = false ∧ ∃ t, exec (.sw 6 5 0) State.reset = .next t ∧
      decide (t.pc = 0x80000000) = true) ∧
    (accessesData (.addi 5 5 1) = false ∧ ∃ t, exec (.addi 5 5 1) table = .next t ∧
      decide (t.pc = 0x80000004) = true) ∧
    onlyRam State.reset.cfg = true ∧
    (∃ t, step State.reset = .next t ∧ decide (t.pc = 0x80000000) = true) :=
  ⟨⟨by decide, of_nextIs (by decide)⟩, ⟨by decide, of_nextIs (by decide)⟩,
   ⟨by decide, of_nextIs (by decide)⟩, by decide, of_nextIs (by decide)⟩
theorem witness_ParametersNeverChange :
    ∃ t, run table 0x0062A023 = .next t ∧ decide (t.pc = 0x80000004) = true := of_nextIs (by decide)
theorem witness_EvenPcStaysEven :
    State.reset.pc.toNat % 2 = 0 ∧
    ∃ t, run (start [(5, 0x80000011)]) 0x000280E7 = .next t ∧ decide (t.pc = 0x80000010) = true :=
  ⟨by decide, of_nextIs (by decide)⟩
theorem witness_StepKeepsInvariant :
    (configWf (placeWord table 0x0062A023).cfg = true ∧
      Memory.wf (placeWord table 0x0062A023).mem = true ∧
      (∀ c ∈ (placeWord table 0x0062A023).mem, inRam (placeWord table 0x0062A023).cfg c.1 = true) ∧
      (placeWord table 0x0062A023).regs[0] = 0) ∧
    ∃ t, run table 0x0062A023 = .next t ∧ decide (t.pc = 0x80000004) = true :=
  ⟨⟨by decide, by decide, by decide, by decide⟩, of_nextIs (by decide)⟩

/-- A RAM_FILL with one byte that is not zero, an image of two bytes. -/
theorem witness_PowerOnStateValues :
    Memory.wf [(0x80000002, 0xFF)] = true ∧ (31 : Reg) ≠ 0 ∧ (31 : Reg) ≠ 2 ∧
    (0 < ([0x13, 0x08] : List Byte).length) ∧
    Config.default.ramBase.toNat + ([0x13, 0x08] : List Byte).length ≤ 0x80000002 := by decide
theorem witness_PowerOnHasInvariant :
    configWf { Config.default with imageLen := 2 } = true ∧ Memory.wf [(0x80000002, 0xFF)] = true ∧
    (∀ x ∈ [((0x80000002 : Nat), (0xFF : Byte))], inRam Config.default x.1 = true) := by decide
theorem witness_RegisterWriteReadsBack : (1 : Reg) ≠ 0 ∧ (31 : Reg) ≠ 0 := by decide
theorem witness_ObservationShowsState :
    State.reset.status = .running ∧
    (State.reset.raise (.pcOut 0)).status = .stopped (.pcOut 0) ∧
    (State.reset.raise (.decodeError 0)).status = .stopped (.decodeError 0) ∧
    (State.reset.raise (.dispatchError 0x73)).status = .stopped (.dispatchError 0x73) ∧
    (State.reset.raise (.busError .store 0 4)).status = .stopped (.busError .store 0 4) ∧
    (State.reset.raise (.deviceFault 0)).status = .stopped (.deviceFault 0) := by decide
theorem witness_ReadIsLittleEndian :
    RamAccess State.reset 0x80000000 .one ∧ RamAccess State.reset 0x87FFFFFE .two ∧
    RamAccess State.reset 0x87FFFFFD .three ∧ RamAccess State.reset 0x87FFFFFC .four :=
  ⟨of_ramAccess (by decide), of_ramAccess (by decide), of_ramAccess (by decide),
   of_ramAccess (by decide)⟩
theorem witness_WriteIsLittleEndian :
    RamAccess table 0x87FFFFFC .four ∧ Memory.wf table.mem = true :=
  ⟨of_ramAccess (by decide), by decide⟩
theorem witness_AccessSucceedsExactlyInsideRam :
    configWf Config.default = true ∧ onlyRam Config.default = true ∧
    configWf withPeripheral.cfg = true := by decide
/-- `sw x6,4(x5)` with x5 = pc. -/
theorem witness_StoreSeenByNextFetch :
    (table.setX 5 0x80000000).status = .running ∧ Memory.wf (table.setX 5 0x80000000).mem = true ∧
    effAddr (table.setX 5 0x80000000) 5 4 = (table.setX 5 0x80000000).pc + 4 ∧
    RamAccess (table.setX 5 0x80000000) ((table.setX 5 0x80000000).pc + 4) .four ∧
    ∃ t, exec (.sw 6 5 4) (table.setX 5 0x80000000) = .next t ∧ decide (t.status = .running) = true :=
  ⟨by decide, by decide, by decide, of_ramAccess (by decide), of_nextIs (by decide)⟩
/-- Both ends of the range of every kind of immediate. -/
theorem witness_DecodeEncodeRoundTrip :
    (Instr.addi 31 31 2047).wf true = true ∧ (Instr.sw 31 31 (-2048)).wf true = true ∧
    (Instr.beq 31 0 4094).wf true = true ∧ (Instr.bgeu 0 31 (-4096)).wf true = true ∧
    (Instr.lui 31 0xFFFFF000).wf true = true ∧ (Instr.jal 31 1048574).wf true = true ∧
    (Instr.jal 0 (-1048576)).wf true = true ∧ (Instr.slli 1 2 31).wf true = true ∧
    (Instr.jalr 1 2 (-1) 0).wf true = true ∧ (Instr.jalr 1 2 (-1) 7).wf false = true ∧
    (Instr.and 1 2 3 127).wf false = true := by decide
theorem witness_DecodeAcceptsOnlyEncodings :
    decodeWord true 0x7E628FE3 = .ok (.beq 5 6 4094) ∧
    decodeWord false 0x0002A0E7 = .ok (.jalr 1 5 0 0b010) := by decide
theorem witness_StrictDecodeOnlyRejectsMore :
    decodeWord true 0x00500813 = .ok (.addi 16 0 5) ∧
    decodeWord false 0x007312B3 = .ok (.sll 5 6 7 0) ∧ (Instr.sll 5 6 7 0).wf true = true := by decide
theorem witness_ExtensionPrimitives : (1 ≤ 1 ∧ 1 ≤ 32) ∧ (1 ≤ 32 ∧ 32 ≤ 32) := by decide

end Sys2Proof.Tests
end

section
/-! Proofs about the register state (ISA_SPEC, family 10_state). -/

namespace Sys2Proof.Machine

/-- Settles O45: the accessor reads 0 at x0 by its own guard, whatever the slot holds, and the snapshot is
taken through the accessor (R22, R33). -/
theorem registerZeroReadsZero : Obligations.RegisterZeroReadsZero := by
  intro s
  have operand : s.x 0 = 0 := State.x_zero s
  have snapshot : (observe s).regs[0] = s.x 0 := observe_reg s 0
  exact ⟨operand, snapshot.trans operand⟩

end Sys2Proof.Machine
end

section
/-! Proofs about the bytes of RAM (ISA_SPEC, family 20_memory): what a read and a write that RAM answers do
(R54, R55). -/

namespace Sys2Proof.Machine

/-! ### The little-endian value of bytes in memory -/

/-- The value of the `n` bytes of memory from `a` upward, the lowest address the least significant: the sum
R54 gives. -/
def byteSum (m : Memory) (a n : Nat) : Nat :=
  ((List.range n).map fun i => 2 ^ (8 * i) * (m.read (a + i)).toNat).sum

theorem byteSum_succ (m : Memory) (a n : Nat) :
    byteSum m a (n + 1) = (m.read a).toNat + 2 ^ 8 * byteSum m (a + 1) n := by
  have shift (i : Nat) : 2 ^ (8 * (i + 1)) * (m.read (a + (i + 1))).toNat =
      2 ^ 8 * (2 ^ (8 * i) * (m.read (a + 1 + i)).toNat) := by
    rw [show 8 * (i + 1) = 8 + 8 * i by omega, pow_add, mul_assoc, Nat.add_right_comm a 1 i, Nat.add_assoc]
  simp only [byteSum, List.sum_range_succ', Nat.succ_eq_add_one, shift, List.sum_map_mul_left]
  simp

theorem byteSum_succ_last (m : Memory) (a n : Nat) :
    byteSum m a (n + 1) = byteSum m a n + 2 ^ (8 * n) * (m.read (a + n)).toNat :=
  List.sum_range_succ _ n

theorem byteSum_lt (m : Memory) (a n : Nat) : byteSum m a n < 2 ^ (8 * n) := by
  induction n generalizing a with
  | zero => simp [byteSum]
  | succ n ih =>
    have byte := (m.read a).isLt
    have rest := ih (a + 1)
    rw [byteSum_succ, Nat.mul_succ, pow_add]
    omega

/-- Where memory holds the bytes of `v`, their value is `v` cut to them. -/
theorem byteSum_of_bytes {m : Memory} {a v : Nat} : ∀ {n : Nat},
    (∀ i, i < n → m.read (a + i) = BitVec.ofNat 8 (v / 2 ^ (8 * i))) → byteSum m a n = v % 2 ^ (8 * n)
  | 0, _ => by simp [byteSum, Nat.mod_one]
  | n + 1, h => by
    have low : byteSum m a n = v % 2 ^ (8 * n) := byteSum_of_bytes fun i hi => h i (by omega)
    have top : (m.read (a + n)).toNat = v / 2 ^ (8 * n) % 2 ^ 8 := by rw [h n (by omega), BitVec.toNat_ofNat]
    rw [byteSum_succ_last, low, top, pow_mul, pow_mul 2 8 (n + 1), Nat.mod_pow_succ (b := 2 ^ 8) (k := n)]

/-! ### RAM -/

/-- A byte below a value shifted past it: the two do not overlap, so `|||` adds. -/
theorem byte_or_shiftLeft (b : Byte) (k : Nat) :
    b.setWidth 32 ||| BitVec.ofNat 32 k <<< 8 = BitVec.ofNat 32 (b.toNat + 2 ^ 8 * k) := by
  have disjoint : b.setWidth 32 &&& BitVec.ofNat 32 k <<< 8 = 0#32 := by
    ext i hi
    by_cases h8 : i < 8
    · simp [h8]
    · simp [BitVec.getLsbD_of_ge b i (by omega)]
  rw [← BitVec.add_eq_or_of_and_eq_zero _ _ disjoint]
  bv_omega

/-- RAM's read inside its buffer is the little-endian value of the bytes (R54). -/
theorem ramRead_inRam {c : Config} {m : Memory} : ∀ {n a : Nat},
    (∀ k, k < n → inRam c (a + k) = true) → ramRead c m a n = .ok (BitVec.ofNat 32 (byteSum m a n))
  | 0, _, _ => rfl
  | n + 1, a, h => by
    have first : inRam c a = true := h 0 (by omega)
    have rest : ramRead c m (a + 1) n = .ok (BitVec.ofNat 32 (byteSum m (a + 1) n)) :=
      ramRead_inRam fun k hk => by
        rw [Nat.add_assoc, Nat.add_comm 1 k]
        exact h (k + 1) (by omega)
    simp only [ramRead, first, if_true, rest, byte_or_shiftLeft, byteSum_succ]

/-- RAM's write inside its buffer stores the low bytes of the value (R55). -/
theorem ramWrite_inRam {c : Config} {a n : Nat} (h : ∀ k, k < n → inRam c (a + k) = true) (m : Memory)
    (v : Word) : ramWrite c m a n v = .done (m.writeBytes a (valueBytes n v)) := by
  rcases ramWrite_cases c n m a v with ⟨-, hw⟩ | ⟨k, hk, hout, -⟩
  · exact hw
  · rw [h k hk] at hout
    cases hout

/-- Byte `i` of a value is its bits 8i+7 : 8i (R55). -/
theorem getElem_valueBytes : ∀ (n : Nat) (v : Word) (i : Nat) (h : i < (valueBytes n v).length),
    (valueBytes n v)[i] = BitVec.ofNat 8 (v.toNat / 2 ^ (8 * i))
  | n + 1, v, 0, _ => by
    apply BitVec.eq_of_toNat_eq
    simp [valueBytes, field]
  | n + 1, v, i + 1, h => by
    have ih := getElem_valueBytes n (v >>> 8) i (by simpa using h)
    simp only [valueBytes, List.getElem_cons_succ, ih, BitVec.toNat_ushiftRight, Nat.shiftRight_eq_div_pow,
      Nat.div_div_eq_div_mul, ← pow_add]
    rw [Nat.mul_succ, Nat.add_comm]

/-- After the low bytes of a value are written, exactly their addresses have changed. -/
theorem read_writeBytes_valueBytes {m : Memory} (hm : m.wf = true) (lo n : Nat) (v : Word) (a : Nat) :
    Memory.read (m.writeBytes lo (valueBytes n v)) a =
      if lo ≤ a ∧ a < lo + n then BitVec.ofNat 8 (v.toNat / 2 ^ (8 * (a - lo))) else m.read a := by
  simp [Memory.read_writeBytes _ hm, getElem_valueBytes]

/-! ### Accesses that RAM answers -/

/-- MemRead of an access that RAM answers, whatever the contents of RAM. -/
theorem memRead_of_ramAccess {s : State} {addr : Word} {n : Width} (h : RamAccess s addr n) (m : Memory)
    (io : List DeviceAccess) :
    memRead s.cfg m io addr n = .ok (BitVec.ofNat 32 (byteSum m addr.toNat n.bytes)) := by
  obtain ⟨⟨⟨start, last, kind⟩, hd, hk⟩, hin⟩ := h
  cases hk
  simp only [memRead, hd, ramRead_inRam hin]

/-- MemWrite of an access that RAM answers. -/
theorem memWrite_of_ramAccess {s : State} {addr : Word} {n : Width} (h : RamAccess s addr n) (m : Memory)
    (io : List DeviceAccess) (v : Word) :
    memWrite s.cfg m io addr n v = .done (m.writeBytes addr.toNat (valueBytes n.bytes v)) := by
  obtain ⟨⟨⟨start, last, kind⟩, hd, hk⟩, hin⟩ := h
  cases hk
  simp only [memWrite, hd, ramWrite_inRam hin]

/-- Settles O49: RAM's read is the sum of the bytes as a word, and a sum of at most four bytes fits one. -/
theorem readIsLittleEndian : Obligations.ReadIsLittleEndian := by
  intro s addr n h
  have bound : byteSum s.mem addr.toNat n.bytes < 2 ^ (8 * n.bytes) := byteSum_lt ..
  have fits : 2 ^ (8 * n.bytes) ≤ 2 ^ 32 := Nat.pow_le_pow_right (by decide) (by have := width_le n; omega)
  have value : (BitVec.ofNat 32 (byteSum s.mem addr.toNat n.bytes)).toNat =
      byteSum s.mem addr.toNat n.bytes := by
    rw [BitVec.toNat_ofNat, Nat.mod_eq_of_lt (bound.trans_le fits)]
  exact ⟨_, memRead_of_ramAccess h s.mem s.io, value, value.trans_lt bound⟩

/-- Settles O50: the memory left is the old one with the value's bytes written; what reads back is the value
of those bytes. -/
theorem writeIsLittleEndian : Obligations.WriteIsLittleEndian := by
  intro s addr n v h hm
  have reads := read_writeBytes_valueBytes hm addr.toNat n.bytes v
  have stored (i : Nat) (hi : i < n.bytes) :
      Memory.read (s.mem.writeBytes addr.toNat (valueBytes n.bytes v)) (addr.toNat + i) =
        BitVec.ofNat 8 (v.toNat / 2 ^ (8 * i)) := by
    simp [reads, hi]
  refine ⟨_, memWrite_of_ramAccess h s.mem s.io v, reads, ?_⟩
  rw [memRead_of_ramAccess h, byteSum_of_bytes stored]

end Sys2Proof.Machine
end

section
/-! Proofs about accesses that a peripheral answers (ISA_SPEC, family 20_memory): the bus hands each to the
peripheral's own read or write (R52, R58, R59, R61, R66, R69). -/

namespace Sys2Proof

/-! ### The extension primitives on a value already cut -/

theorem zext_eq_ofNat (n : Nat) (v : Word) : zext n v = BitVec.ofNat 32 (v.toNat % 2 ^ n) := by
  apply BitVec.eq_of_toNat_eq
  simp [zext]

/-- Cutting at the full width keeps the value. -/
@[simp] theorem zext_full (v : Word) : zext 32 v = v := by simp [zext]

/-- Sign-extending from the full width keeps the value. -/
@[simp] theorem sext_full (v : Word) : sext 32 v = v := by simp [sext]

/-- The low `n` bits of a value cut to `n` bits are the value's own. -/
theorem setWidth_zext {n : Nat} (hn : n ≤ 32) (v : Word) : (zext n v).setWidth n = v.setWidth n := by
  rw [zext, BitVec.setWidth_setWidth_of_le _ hn, BitVec.setWidth_eq]

theorem sext_zext {n : Nat} (hn : n ≤ 32) (v : Word) : sext n (zext n v) = sext n v := by
  rw [sext, setWidth_zext hn, sext]

theorem zext_zext {n : Nat} (hn : n ≤ 32) (v : Word) : zext n (zext n v) = zext n v := by
  rw [zext, setWidth_zext hn, zext]

namespace Machine

/-! ### The bus -/

section
variable {c : Config} {d : Device} {id : Nat} {addr : Word} {n : Width} (m : Memory) {io : List DeviceAccess}
  (hd : findDevice c.devices addr n = some d) (hk : d.kind = .peripheral id)
include hd hk

/-- MemRead of an access that a peripheral completes: its value cut to the width (R54). -/
theorem memRead_peripheral_ok {v : Word} (h : Config.peripheralRead id io addr n.bytes = .ok v) :
    memRead c m io addr n = .ok (zext (8 * n.bytes) v) := by
  obtain ⟨start, last, kind⟩ := d
  cases hk
  simp only [memRead, hd, peripheralRead, h]

/-- MemRead of an access that a peripheral fails (R61). -/
theorem memRead_peripheral_error {a : Nat} (h : Config.peripheralRead id io addr n.bytes = .error a) :
    memRead c m io addr n = .error (.peripheralFailed a) := by
  obtain ⟨start, last, kind⟩ := d
  cases hk
  simp only [memRead, hd, peripheralRead, h]

/-- MemWrite of an access that a peripheral completes: RAM is kept (R59). -/
theorem memWrite_peripheral_ok {v : Word} {u : Unit}
    (h : Config.peripheralWrite id io addr n.bytes (zext (8 * n.bytes) v) = .ok u) :
    memWrite c m io addr n v = .done m := by
  obtain ⟨start, last, kind⟩ := d
  cases hk
  simp only [memWrite, hd, peripheralWrite, h]

/-- MemWrite of an access that a peripheral fails: RAM is kept (R61). -/
theorem memWrite_peripheral_error {v : Word} {a : Nat}
    (h : Config.peripheralWrite id io addr n.bytes (zext (8 * n.bytes) v) = .error a) :
    memWrite c m io addr n v = .failed (.peripheralFailed a) m := by
  obtain ⟨start, last, kind⟩ := d
  cases hk
  simp only [memWrite, hd, peripheralWrite, h]

end

/-! ### Loads and stores by what the bus answers -/

section
variable {i : Instr} {r rs1 : Reg} {imm : Word} {n : Width} {ext : Word → Word} {s : State}
  (hl : s.cfg.lsEnable = true)
include hl

theorem load_of_ok {v : Word} (h : memRead s.cfg s.mem s.io (effAddr s rs1 imm) n = .ok v) :
    load i r rs1 imm n ext s = .next ((s.afterRead (effAddr s rs1 imm) n).retire r (ext v)) := by
  simp only [load, hl, if_true, h]

theorem load_of_error {f : BusFailure} (h : memRead s.cfg s.mem s.io (effAddr s rs1 imm) n = .error f) :
    load i r rs1 imm n ext s = .next (s.raise (stopOf .load f)) := by
  simp only [load, hl, if_true, h]

theorem store_of_done {m : Memory}
    (h : memWrite s.cfg s.mem s.io (effAddr s rs1 imm) n (s.x r) = .done m) :
    store i r rs1 imm n s = .next (s.afterWrite m (effAddr s rs1 imm) n (s.x r)).advance := by
  simp only [store, hl, if_true, h]

theorem store_of_failed {f : BusFailure} {m : Memory}
    (h : memWrite s.cfg s.mem s.io (effAddr s rs1 imm) n (s.x r) = .failed f m) :
    store i r rs1 imm n s = .next ((s.withMem m).raise (stopOf .store f)) := by
  simp only [store, hl, if_true, h]

end

/-- Advancing writes the pc, nothing else. -/
theorem advance_wrotePc (s : State) : WrotePc s s.advance (s.pc + 4) :=
  ⟨fun _ => rfl, rfl, fun _ => rfl, rfl, rfl, rfl⟩

/-! ### Loads, stores and fetches in a peripheral's range -/

section
variable {s : State} {d : Device} {id : Nat} {n : Width} (hk : d.kind = .peripheral id)
include hk

/-- A bus read that a peripheral completes is recorded, and nothing else of the state changes. -/
theorem afterRead_peripheral {addr : Word} (hd : findDevice s.cfg.devices addr n = some d) :
    s.afterRead addr n = { s with io := .read id addr n.bytes :: s.io } := by
  rw [State.afterRead, ioAfterRead_of_peripheral hd hk]

/-- A bus write that a peripheral completes is recorded, and nothing else of the state changes. -/
theorem afterWrite_peripheral {addr v : Word} (hd : findDevice s.cfg.devices addr n = some d) :
    s.afterWrite s.mem addr n v =
      { s with io := .write id addr n.bytes (zext (8 * n.bytes) v) :: s.io } := by
  rw [State.afterWrite, ioAfterWrite_of_peripheral hd hk]

variable {i : Instr} {r rs1 : Reg} {imm : Word} (hl : s.cfg.lsEnable = true)
  (hd : findDevice s.cfg.devices (effAddr s rs1 imm) n = some d)
include hl hd

/-- Every load in a peripheral's range. The bus cuts the peripheral's value to the width first (R54), so `ext'`
states what the load's own extension makes of the value as it was answered. -/
theorem load_loadsFromPeripheral {ext ext' : Word → Word} (hi : exec i s = load i r rs1 imm n ext s)
    (hext : ∀ v, ext (zext (8 * n.bytes) v) = ext' v) :
    LoadsFromPeripheral s i r id (effAddr s rs1 imm) n ext' := by
  unfold LoadsFromPeripheral
  cases hp : Config.peripheralRead id s.io (effAddr s rs1 imm) n.bytes with
  | ok v =>
    refine ⟨_, hi.trans (load_of_ok hl (memRead_peripheral_ok s.mem hd hk hp)), ?_⟩
    rw [hext, afterRead_peripheral hk hd]
    exact retire_wroteReg ..
  | error a =>
    exact ⟨_, hi.trans (load_of_error hl (memRead_peripheral_error s.mem hd hk hp)),
      raise_stoppedPrecisely s _⟩

/-- Every store in a peripheral's range. -/
theorem store_storesToPeripheral (hi : exec i s = store i r rs1 imm n s) :
    StoresToPeripheral s i id (effAddr s rs1 imm) n (s.x r) := by
  unfold StoresToPeripheral
  rw [← zext_eq_ofNat]
  cases hp : Config.peripheralWrite id s.io (effAddr s rs1 imm) n.bytes (zext (8 * n.bytes) (s.x r)) with
  | ok u =>
    refine ⟨_, hi.trans (store_of_done hl (memWrite_peripheral_ok s.mem hd hk hp)), ?_⟩
    rw [afterWrite_peripheral hk hd]
    exact advance_wrotePc _
  | error a =>
    exact ⟨_, hi.trans (store_of_failed hl (memWrite_peripheral_error s.mem hd hk hp)),
      raise_stoppedPrecisely s _⟩

end

/-- A fetch whose bus read fails stops the core precisely with the cause that the failure gives (R261, R286). -/
theorem step_of_fetch_error {s : State} {f : BusFailure} (hr : s.status = .running)
    (him : inImage s.cfg s.pc = true) (h : memRead s.cfg s.mem s.io s.pc .four = .error f) :
    step s = .next (s.raise (stopOf .fetch f)) := by
  simp only [step_running hr, cycle, him, if_true, h]

/-- Settles O34: each load and store is its shape at its width; the fetch is the bus read at the pc. -/
theorem peripheralAccessesAreItsReadAndWrite : Obligations.PeripheralAccessesAreItsReadAndWrite := by
  refine ⟨fun r rs1 imm s d id hl hk => ⟨fun hd => ⟨?lb, ?lbu, ?sb⟩, fun hd => ⟨?lh, ?lhu, ?sh⟩,
    fun hd => ⟨?lw, ?sw⟩⟩, fun s d id hr him hk hd => ?fetch⟩
  case lb => exact load_loadsFromPeripheral hk hl hd rfl (sext_zext (by decide))
  case lbu =>
    exact load_loadsFromPeripheral hk hl hd rfl fun v =>
      (zext_zext (by decide) v).trans (zext_eq_ofNat 8 v)
  case lh => exact load_loadsFromPeripheral hk hl hd rfl (sext_zext (by decide))
  case lhu =>
    exact load_loadsFromPeripheral hk hl hd rfl fun v =>
      (zext_zext (by decide) v).trans (zext_eq_ofNat 16 v)
  case lw =>
    exact load_loadsFromPeripheral hk hl hd rfl fun v =>
      (sext_zext (n := 32) (by decide) v).trans (sext_full v)
  case sb => exact store_storesToPeripheral hk hl hd rfl
  case sh => exact store_storesToPeripheral hk hl hd rfl
  case sw => exact store_storesToPeripheral hk hl hd rfl
  case fetch =>
    cases hp : Config.peripheralRead id s.io s.pc 4 with
    | ok w =>
      have read : memRead s.cfg s.mem s.io s.pc .four = .ok (zext 32 w) :=
        memRead_peripheral_ok s.mem hd hk hp
      rw [zext_full] at read
      exact ⟨⟨hr, him, read⟩, afterRead_peripheral hk hd⟩
    | error a =>
      exact ⟨_, step_of_fetch_error hr him (memRead_peripheral_error s.mem hd hk hp),
        raise_stoppedPrecisely s _⟩

end Machine
end Sys2Proof
end

section
/-! Proofs about the decoder (ISA_SPEC, family 30_encoding): the opcodes it does not recognise (R103, R104,
R284), and the immediates of the six formats bit by bit with their ranges (R96 to R101). -/

namespace Sys2Proof

/-! ### Opcodes outside the table of R103 -/

theorem Opcode.bits_mem_recognisedOpcodes (o : Opcode) : o.bits ∈ Machine.recognisedOpcodes := by
  cases o <;> decide

theorem Opcode.ofBits_eq_none_iff (b : BitVec 7) : Opcode.ofBits b = none ↔ b ∉ Machine.recognisedOpcodes := by
  constructor
  · intro hnone hmem
    have recognised : ∀ c ∈ Machine.recognisedOpcodes, Opcode.ofBits c ≠ none := by decide
    exact recognised b hmem hnone
  · intro hmem
    cases ho : Opcode.ofBits b with
    | none => rfl
    | some o =>
      rw [Opcode.ofBits_some ho] at hmem
      exact absurd o.bits_mem_recognisedOpcodes hmem

theorem decodeWord_unrecognised_iff (strict : Bool) (w : Word) :
    decodeWord strict w = .error .unrecognisedOpcode ↔ field w 0 7 ∉ Machine.recognisedOpcodes := by
  rw [← Opcode.ofBits_eq_none_iff]
  rcases decodeWord_cases strict w with ⟨hnone, hdec⟩ | ⟨o, hbits, -, hdec⟩ | ⟨o, i, hbits, -, hdec⟩
  · simp [hnone, hdec]
  · simp [hbits, hdec]
  · simp [hbits, hdec]

namespace Machine

/-- Settles O29: the decoder's answer is the opcode table's, and the step stops by it (R104, R284). -/
theorem unrecognisedOpcodeStops : Obligations.UnrecognisedOpcodeStops := by
  refine ⟨by rfl, decodeWord_unrecognised_iff, fun s w hw hop => ?_⟩
  have hdec := (decodeWord_unrecognised_iff s.cfg.strictDecode w).2 hop
  exact ⟨_, by rw [step_fetched hw, hdec], raise_stoppedPrecisely s.afterFetch _⟩

end Machine

/-! ### Where a placed field's bits stand -/

/-- A field of a word placed at `a` shows the word's bits inside it. -/
theorem getLsbD_place_field_inside (w : Word) (lo : Nat) {a n k : Nat} (ha : a ≤ k) (hn : k < a + n)
    (hk : k < 32) : (place a (field w lo n)).getLsbD k = w.getLsbD (lo + (k - a)) := by
  have hin : k - a < n := by omega
  simp [place, field, hk, hin, Nat.not_lt.2 ha]

/-- A field of a word placed at `a` is zero outside it. -/
theorem getLsbD_place_field_outside (w : Word) (lo : Nat) {a n k : Nat} (h : k < a ∨ a + n ≤ k) :
    (place a (field w lo n)).getLsbD k = false := by
  rcases h with h | h
  · simp [place, h]
  · have hout : n ≤ k - a := by omega
    simp [place, field, hout]

/-- Below its sign bit a sign extension shows the bits of its operand. -/
theorem getLsbD_sext_low {n k : Nat} (hn : n ≤ 32) (h : k + 1 < n) (v : Word) :
    (sext n v).getLsbD k = v.getLsbD k := by
  rw [getLsbD_sext (by omega) hn, if_pos (by omega), decide_eq_true (by omega), Bool.true_and]

/-- From its sign bit upward a sign extension shows the sign bit. -/
theorem getLsbD_sext_sign {n k : Nat} (hn : 1 ≤ n) (hn' : n ≤ 32) (h : n ≤ k + 1) (hk : k < 32) (v : Word) :
    (sext n v).getLsbD k = v.getLsbD (n - 1) := by
  have hbit : (if k < n then k else n - 1) = n - 1 := by split <;> omega
  rw [getLsbD_sext hn hn', hbit, decide_eq_true hk, Bool.true_and]

/-! ### The immediates, bit by bit

Each proof takes the fields of the format one by one: at a bit of one field that field is inside, the others
are outside, and what is left is the field's offset in the word. -/

section
variable (w : Word) (k : Nat)

theorem getLsbD_immI (hk : k < 32) : (immI w).getLsbD k = w.getLsbD (if k < 11 then 20 + k else 31) := by
  rw [immI]
  by_cases low : k < 11
  · simp (disch := omega) only [getLsbD_sext_low, getLsbD_place_field_inside, if_pos, Nat.sub_zero]
  · simp (disch := omega) only [getLsbD_sext_sign, getLsbD_place_field_inside, if_neg]

theorem getLsbD_immS (hk : k < 32) :
    (immS w).getLsbD k = w.getLsbD (if k < 5 then 7 + k else if k < 11 then 20 + k else 31) := by
  have fields : k < 5 ∨ (5 ≤ k ∧ k < 11) ∨ 11 ≤ k := by omega
  rw [immS]
  rcases fields with h | h | h <;>
    simp (disch := omega) only [getLsbD_sext_low, getLsbD_sext_sign, BitVec.getLsbD_or,
      getLsbD_place_field_inside, getLsbD_place_field_outside, if_pos, if_neg, Bool.or_false, Bool.false_or,
      Nat.sub_zero]
  congr 1; omega

theorem getLsbD_immB (hk : k < 32) :
    (immB w).getLsbD k = (decide (k ≠ 0) &&
      w.getLsbD (if k < 5 then 7 + k else if k < 11 then 20 + k else if k = 11 then 7 else 31)) := by
  have fields : k = 0 ∨ (1 ≤ k ∧ k < 5) ∨ (5 ≤ k ∧ k < 11) ∨ k = 11 ∨ 12 ≤ k := by omega
  rw [immB]
  rcases fields with h | h | h | h | h <;>
    simp (disch := omega) only [getLsbD_sext_low, getLsbD_sext_sign, BitVec.getLsbD_or,
      getLsbD_place_field_inside, getLsbD_place_field_outside, if_pos, if_neg, decide_eq_true,
      decide_eq_false, Bool.or_false, Bool.false_or, Bool.true_and, Bool.false_and]
  all_goals congr 1; omega

theorem getLsbD_immU (hk : k < 32) : (immU w).getLsbD k = (decide (12 ≤ k) && w.getLsbD k) := by
  rw [immU]
  by_cases h : 12 ≤ k
  · simp (disch := omega) only [getLsbD_place_field_inside, decide_eq_true, Bool.true_and,
      Nat.add_sub_cancel']
  · simp (disch := omega) only [getLsbD_place_field_outside, decide_eq_false, Bool.false_and]

theorem getLsbD_immJ (hk : k < 32) :
    (immJ w).getLsbD k = (decide (k ≠ 0) &&
      w.getLsbD (if k < 11 then 20 + k else if k = 11 then 20 else if k < 20 then k else 31)) := by
  have fields : k = 0 ∨ (1 ≤ k ∧ k < 11) ∨ k = 11 ∨ (12 ≤ k ∧ k < 20) ∨ 20 ≤ k := by omega
  rw [immJ]
  rcases fields with h | h | h | h | h <;>
    simp (disch := omega) only [getLsbD_sext_low, getLsbD_sext_sign, BitVec.getLsbD_or,
      getLsbD_place_field_inside, getLsbD_place_field_outside, if_pos, if_neg, decide_eq_true,
      decide_eq_false, Bool.or_false, Bool.false_or, Bool.true_and, Bool.false_and]
  all_goals congr 1; omega

end

/-! ### The immediates are in the ranges of their formats -/

theorem immFitsB_immB (w : Word) : immFitsB (immB w) = true := by
  obtain ⟨low, high⟩ : -(2 ^ 12 : Int) ≤ (immB w).toInt ∧ (immB w).toInt < 2 ^ 12 :=
    toInt_sext_range (n := 13) (by decide) _
  have even : (immB w).toInt % 2 = 0 := (toInt_even_iff _).2 (getLsbD_immB w 0 (by decide))
  exact decide_eq_true ⟨low, by omega, even⟩

theorem immFitsU_immU (w : Word) : immFitsU (immU w) = true := by
  have shifted : (immU w).toNat = (field w 12 20).toNat * 2 ^ 12 % 2 ^ 32 := by
    simp only [immU, place, BitVec.toNat_shiftLeft, Nat.shiftLeft_eq,
      BitVec.toNat_setWidth_of_le (show 20 ≤ 32 by decide)]
  exact decide_eq_true (by omega)

theorem immFitsJ_immJ (w : Word) : immFitsJ (immJ w) = true := by
  obtain ⟨low, high⟩ : -(2 ^ 20 : Int) ≤ (immJ w).toInt ∧ (immJ w).toInt < 2 ^ 20 :=
    toInt_sext_range (n := 21) (by decide) _
  have even : (immJ w).toInt % 2 = 0 := (toInt_even_iff _).2 (getLsbD_immJ w 0 (by decide))
  exact decide_eq_true ⟨low, by omega, even⟩

namespace Machine

/-- Settles O55: each format's bits from its fields, each range from the width of its sign extension and from
its zero bits (R96 to R101). -/
theorem immediateBitsAndRanges : Obligations.ImmediateBitsAndRanges := by
  intro w
  exact ⟨rfl, getLsbD_immI w, getLsbD_immS w, getLsbD_immB w, getLsbD_immU w, getLsbD_immJ w,
    of_decide_eq_true (immFits12_sext _), of_decide_eq_true (immFits12_sext _),
    of_decide_eq_true (immFitsB_immB w), of_decide_eq_true (immFitsU_immU w),
    of_decide_eq_true (immFitsJ_immJ w)⟩

end Machine
end Sys2Proof
end

section
/-! Proofs about the units (ISA_SPEC, family 40_cycle_and_units): the extension primitives (R140) and the
branch unit (R156, R157). -/

namespace Sys2Proof

/-! ### The extension primitives as integers -/

/-- A sign extension has the signed value of its low `n` bits, whose sign bit weighs `2 ^ (n - 1)`. -/
theorem toInt_sext {n : Nat} (hn : 1 ≤ n) (hn' : n ≤ 32) (v : Word) :
    (sext n v).toInt =
      if v.toNat % 2 ^ n < 2 ^ (n - 1) then (v.toNat % 2 ^ n : Int) else (v.toNat % 2 ^ n : Int) - 2 ^ n := by
  have half : 2 * (v.toNat % 2 ^ n) < 2 ^ n ↔ v.toNat % 2 ^ n < 2 ^ (n - 1) := by
    have double : 2 ^ n = 2 * 2 ^ (n - 1) := (mul_pow_sub_one (by omega) 2).symm
    omega
  rw [sext, BitVec.toInt_signExtend_of_le hn', BitVec.toInt_eq_toNat_cond, BitVec.toNat_setWidth]
  simp only [half, Int.natCast_emod, Int.natCast_pow, Int.cast_ofNat_Int]

theorem toNat_zext {n : Nat} (hn : n ≤ 32) (v : Word) : (zext n v).toNat = v.toNat % 2 ^ n := by
  rw [zext, BitVec.toNat_setWidth_of_le hn, BitVec.toNat_setWidth]

namespace Machine

/-- Settles O58: the integer value of each primitive, and the two lemmas on the full width. -/
theorem extensionPrimitives : Obligations.ExtensionPrimitives := by
  intro n v hn hn'
  refine ⟨toInt_sext hn hn' v, toNat_zext hn' v, ?_⟩
  rintro rfl
  exact ⟨sext_full v, zext_full v⟩

/-! ### The branch unit -/

theorem branchTaken_ge_eq_not_lt (a b : Word) : branchTaken .ge a b = !branchTaken .lt a b := by
  simp only [branchTaken, ← decide_not, not_lt]

theorem branchTaken_geu_eq_not_ltu (a b : Word) : branchTaken .geu a b = !branchTaken .ltu a b := by
  simp only [branchTaken, ← decide_not, not_lt]

/-- Settles O60: each comparator decides its own comparison; the negations are the order being total (R157). -/
theorem branchComparators : Obligations.BranchComparators := by
  intro a b
  exact ⟨decide_eq_true_iff, decide_eq_true_iff, decide_eq_true_iff, decide_eq_true_iff, decide_eq_true_iff,
    decide_eq_true_iff, branchTaken_ge_eq_not_lt a b, branchTaken_geu_eq_not_ltu a b⟩

end Machine
end Sys2Proof
end

section
/-! Proofs about the register-immediate instructions (ISA_SPEC, family 41_op_imm): the words of the six that
are not shifts and their results (R170 to R175, R179). -/

namespace Sys2Proof

/-! ### The words of OP-IMM -/

/-- Format I sign-extends bits 31:20 (R97). -/
theorem immI_eq_signExtend (w : Word) : immI w = (field w 20 12).signExtend 32 := by
  have low : (place 0 (field w 20 12)).setWidth 12 = field w 20 12 := by
    rw [place, BitVec.shiftLeft_zero, BitVec.setWidth_setWidth_of_le _ (by decide), BitVec.setWidth_eq]
  rw [immI, sext, low]

/-- An OP-IMM word is the row of R107 that its funct3 selects, with imm = w[31:20] sign-extended. With funct3 a
numeral, `row` holds by computation. -/
theorem decodeWord_opImm {strict : Bool} {w : Word} {f3 : BitVec 3} {i : Instr}
    (h : Machine.HasOpF3 w 0b0010011 f3)
    (row : dispatchOpImm strict { decodedOf .opImm w with
      funct3 := f3, imm := (field w 20 12).signExtend 32 } = some i) :
    decodeWord strict w = .ok i := by
  obtain ⟨hop, rfl⟩ := h
  rw [← immI_eq_signExtend] at row
  exact decodeWord_of_dispatch (o := .opImm) hop row

namespace Machine

/-! ### The ALU's sum and comparisons in the statements' spelling -/

theorem alu_add_eq_ofNat (a b : Word) : alu .add a b = BitVec.ofNat 32 (a.toNat + b.toNat) := rfl

theorem alu_slt_eq_ite (a b : Word) : alu .slt a b = if a.toInt < b.toInt then 1 else 0 := by
  simp only [alu, flagWord, decide_eq_true_eq]

theorem alu_sltu_eq_ite (a b : Word) : alu .sltu a b = if a.toNat < b.toNat then 1 else 0 := by
  simp only [alu, flagWord, decide_eq_true_eq]

/-! ### Results -/

/-- The family's one effect (R179): the ALU's value in x[rd], the pc advanced, nothing else changed. -/
theorem aluImm_wroteReg {i : Instr} {op : AluOp} {rd rs1 : Reg} {b v : Word} {s : State}
    (hi : exec i s = aluImm op rd rs1 b s) (hv : alu op (s.x rs1) b = v) :
    ∃ t, exec i s = .next t ∧ WroteReg s t rd v (s.pc + 4) := by
  subst hv
  exact ⟨_, hi, retire_wroteReg s rd _⟩

/-- Settles O1: row 000 of OP-IMM, and the ALU's sum. -/
theorem addiAddsImmediate : Obligations.AddiAddsImmediate :=
  ⟨fun _ _ h => decodeWord_opImm h rfl, fun _ _ _ _ => aluImm_wroteReg rfl (alu_add_eq_ofNat _ _)⟩

/-- Settles O2: rows 010 and 011 of OP-IMM, and the ALU's signed and unsigned comparison. -/
theorem sltiSltiuCompareImmediate : Obligations.SltiSltiuCompareImmediate := by
  refine ⟨fun _ _ h => ?sltiWord, fun _ _ h => ?sltiuWord, fun _ _ _ _ => ?slti, fun _ _ _ _ => ?sltiu⟩
  case sltiWord => exact decodeWord_opImm h rfl
  case sltiuWord => exact decodeWord_opImm h rfl
  case slti => exact aluImm_wroteReg rfl (alu_slt_eq_ite _ _)
  case sltiu => exact aluImm_wroteReg rfl (alu_sltu_eq_ite _ _)

/-- Settles O3: rows 100, 110 and 111 of OP-IMM; the ALU's operations are the bitwise ones. -/
theorem xoriOriAndiBitwise : Obligations.XoriOriAndiBitwise := by
  refine ⟨fun _ _ h => ?xoriWord, fun _ _ h => ?oriWord, fun _ _ h => ?andiWord,
    fun _ _ _ _ => ⟨?xori, ?ori, ?andi⟩⟩
  case xoriWord => exact decodeWord_opImm h rfl
  case oriWord => exact decodeWord_opImm h rfl
  case andiWord => exact decodeWord_opImm h rfl
  case xori => exact aluImm_wroteReg rfl rfl
  case ori => exact aluImm_wroteReg rfl rfl
  case andi => exact aluImm_wroteReg rfl rfl

end Machine
end Sys2Proof
end

section
/-! Proofs about the register-register instructions (ISA_SPEC, family 42_op): the words of OP, and the sum and
the difference (R190, R191, R200). -/

namespace Sys2Proof

/-! ### The words of OP -/

/-- An OP word is the row of R107 that its funct3 and funct7 select. With those two numerals, `row` holds by
computation. -/
theorem decodeWord_op {strict : Bool} {w : Word} {f3 : BitVec 3} {f7 : BitVec 7} {i : Instr}
    (h : Machine.HasOpF3 w 0b0110011 f3) (h7 : field w 25 7 = f7)
    (row : dispatchOp strict { decodedOf .op w with funct3 := f3, funct7 := f7 } = some i) :
    decodeWord strict w = .ok i := by
  obtain ⟨hop, rfl⟩ := h
  subst h7
  exact decodeWord_of_dispatch (o := .op) hop row

namespace Machine

/-! ### Results -/

/-- R143: the difference modulo 2^32 is the same whether the operands are read signed or unsigned. -/
theorem alu_sub_eq_ofInt (a b : Word) : alu .sub a b = BitVec.ofInt 32 (a.toInt - b.toInt) := by
  refine BitVec.eq_of_toInt_eq ?_
  rw [alu, BitVec.toInt_sub, BitVec.toInt_ofInt]

/-- The family's one effect (R200): that of a register-immediate instruction whose second operand is x[rs2]. -/
theorem aluReg_wroteReg {i : Instr} {op : AluOp} {rd rs1 rs2 : Reg} {v : Word} {s : State}
    (hi : exec i s = aluReg op rd rs1 rs2 s) (hv : alu op (s.x rs1) (s.x rs2) = v) :
    ∃ t, exec i s = .next t ∧ WroteReg s t rd v (s.pc + 4) :=
  aluImm_wroteReg hi hv

/-- Settles O5: row 000 of OP, split by funct7, and the ALU's sum and difference. -/
theorem addSubWrap : Obligations.AddSubWrap := by
  refine ⟨fun _ _ h => ⟨fun h7 => ?addWord, fun h7 => ?subWord⟩, fun _ _ _ _ => ⟨?add, ?sub⟩⟩
  case addWord => exact decodeWord_op h h7 rfl
  case subWord => exact decodeWord_op h h7 rfl
  case add => exact aluReg_wroteReg rfl (alu_add_eq_ofNat _ _)
  case sub => exact aluReg_wroteReg rfl (alu_sub_eq_ofInt _ _)

end Machine
end Sys2Proof
end

section
/-! Proofs about the upper-immediate instructions (ISA_SPEC, family 43_upper_imm): their words and results
(R210 to R212). -/

namespace Sys2Proof

/-- Format U is bits 31:12 followed by 12 zero bits (R100). -/
theorem immU_eq_append (w : Word) : immU w = (field w 12 20 ++ 0#12).setWidth 32 := by
  rw [BitVec.setWidth_append_eq_shiftLeft_setWidth_or, BitVec.setWidth_zero, BitVec.or_zero, immU, place]

namespace Machine

/-- The sum of R211 is the one modulo 2^32. -/
theorem pcTarget_eq_ofNat (s : State) (imm : Word) :
    pcTarget s imm = BitVec.ofNat 32 (s.pc.toNat + imm.toNat) := rfl

/-- Settles O9: the opcode alone selects the row (R212), so dispatch computes to it on every such word; both
instructions retire, LUI with imm and AUIPC with its own pc plus imm. -/
theorem luiAuipcResults : Obligations.LuiAuipcResults := by
  refine ⟨fun _ w => ?words, fun rd imm s => ⟨?lui, ?auipc⟩⟩
  case words =>
    rw [← immU_eq_append]
    exact ⟨fun h => decodeWord_of_dispatch (o := .lui) h rfl,
      fun h => decodeWord_of_dispatch (o := .auipc) h rfl⟩
  case lui => exact ⟨_, rfl, retire_wroteReg s rd imm⟩
  case auipc =>
    rw [← pcTarget_eq_ofNat]
    exact ⟨_, rfl, retire_wroteReg s rd (pcTarget s imm)⟩

end Machine
end Sys2Proof
end

section
/-! Proofs about the unconditional jumps (ISA_SPEC, family 44_jumps): the words of JAL, its link and target
(R220, R222). -/

namespace Sys2Proof

/-! ### Fields placed side by side -/

/-- Placing two adjacent bit strings places the low one and, above it, the high one. -/
theorem place_append (lo : Nat) {m n : Nat} (hi : BitVec m) (low : BitVec n) :
    place lo (hi ++ low) = place (lo + n) hi ||| place lo low := by
  simp only [place, BitVec.setWidth_append_eq_shiftLeft_setWidth_or, BitVec.shiftLeft_or_distrib,
    ← BitVec.shiftLeft_add, Nat.add_comm n lo]

@[simp] theorem place_zero_bits (lo n : Nat) : place lo 0#n = 0#32 := by
  rw [place, BitVec.setWidth_zero, BitVec.zero_shiftLeft]

/-- A bit string placed at bit 0 is extended from its own sign bit. -/
theorem sext_place_zero {n : Nat} (hn : n ≤ 32) (v : BitVec n) : sext n (place 0 v) = v.signExtend 32 := by
  rw [sext, place, BitVec.shiftLeft_zero, BitVec.setWidth_setWidth_of_le _ hn, BitVec.setWidth_eq]

/-! ### The words of JAL -/

/-- Format J sign-extends its fields set side by side above a zero bit (R101). -/
theorem immJ_eq_signExtend (w : Word) : immJ w =
    (field w 31 1 ++ field w 12 8 ++ field w 20 1 ++ field w 21 10 ++ 0#1).signExtend 32 := by
  calc immJ w
    _ = sext 21 (place 0 (field w 31 1 ++ field w 12 8 ++ field w 20 1 ++ field w 21 10 ++ 0#1)) := by
      simp only [immJ, place_append, place_zero_bits, BitVec.or_zero]
    _ = _ := sext_place_zero (by decide) _

namespace Machine

/-! ### Results -/

/-- The sum of R222 is the one modulo 2^32. -/
theorem linkAddr_eq_ofNat (s : State) : linkAddr s = BitVec.ofNat 32 (s.pc.toNat + 4) := rfl

/-- The family's one effect: the link value in x[rd], the pc at the target, nothing else changed. -/
theorem setX_jump_wroteReg (s : State) (rd : Reg) (v target : Word) :
    WroteReg s ((s.setX rd v).jump target) rd v target :=
  ⟨fun r => State.x_setX s rd r v, rfl, fun a => by rw [State.jump_mem, State.setX_mem],
   State.setX_io s rd v, State.setX_status s rd v, State.setX_cfg s rd v⟩

/-- Settles O10: the opcode alone selects the row, so dispatch computes to it on every such word; the link and
the target are both sums with the old pc. -/
theorem jalLinksAndJumps : Obligations.JalLinksAndJumps := by
  refine ⟨fun strict w hop => ?word, fun rd imm s => ?links⟩
  case word =>
    rw [← immJ_eq_signExtend]
    exact decodeWord_of_dispatch (o := .jal) hop rfl
  case links =>
    rw [← linkAddr_eq_ofNat, ← pcTarget_eq_ofNat]
    exact ⟨_, rfl, setX_jump_wroteReg s rd (linkAddr s) (pcTarget s imm)⟩

end Machine
end Sys2Proof
end

section
/-! Proofs about the conditional branches (ISA_SPEC, family 45_branches): the words of BRANCH and the pc they
give (R230 to R236). -/

namespace Sys2Proof

/-! ### The words of BRANCH -/

/-- Format B sign-extends its fields set side by side above a zero bit (R99). -/
theorem immB_eq_signExtend (w : Word) : immB w =
    (field w 31 1 ++ field w 7 1 ++ field w 25 6 ++ field w 8 4 ++ 0#1).signExtend 32 := by
  calc immB w
    _ = sext 13 (place 0 (field w 31 1 ++ field w 7 1 ++ field w 25 6 ++ field w 8 4 ++ 0#1)) := by
      simp only [immB, place_append, place_zero_bits, BitVec.or_zero]
    _ = _ := sext_place_zero (by decide) _

/-- A BRANCH word is the row of R107 that its funct3 selects, with the immediate of format B. With funct3 a
numeral, `row` holds by computation. -/
theorem decodeWord_branch {strict : Bool} {w : Word} {f3 : BitVec 3} {i : Instr}
    (h : Machine.HasOpF3 w 0b1100011 f3)
    (row : dispatchBranch { decodedOf .branch w with
      funct3 := f3
      imm := (field w 31 1 ++ field w 7 1 ++ field w 25 6 ++ field w 8 4 ++ 0#1).signExtend 32 } = some i) :
    decodeWord strict w = .ok i := by
  obtain ⟨hop, rfl⟩ := h
  rw [← immB_eq_signExtend] at row
  exact decodeWord_of_dispatch (o := .branch) hop row

namespace Machine

/-! ### The next pc -/

/-- Jumping writes the pc, nothing else. -/
theorem jump_wrotePc (s : State) (target : Word) : WrotePc s (s.jump target) target :=
  ⟨State.jump_x s target, State.jump_pc s target, fun a => by rw [State.jump_mem], State.jump_io s target,
   State.jump_status s target, State.jump_cfg s target⟩

section
variable {i : Instr} {cmp : Cmp} {rs1 rs2 : Reg} {imm : Word} {s : State} {p : Prop} [Decidable p]
  (hi : exec i s = branch cmp rs1 rs2 imm s)
include hi

/-- The family's one effect (R230): the pc moves by imm where the comparator's relation `p` holds and by 4
where it does not; nothing else changes. -/
theorem branch_wrotePc_of_taken_iff (taken : branchTaken cmp (s.x rs1) (s.x rs2) = true ↔ p) :
    ∃ t, exec i s = .next t ∧ WrotePc s t (if p then s.pc + imm else s.pc + 4) := by
  refine ⟨_, hi, ?_⟩
  by_cases hp : p
  · rw [if_pos hp, if_pos (taken.mpr hp)]
    exact jump_wrotePc s (pcTarget s imm)
  · rw [if_neg hp, if_neg (mt taken.mp hp)]
    exact advance_wrotePc s

/-- The same effect for a comparator that is the negation of `p` (R157). -/
theorem branch_wrotePc_of_taken_iff_not (taken : branchTaken cmp (s.x rs1) (s.x rs2) = true ↔ ¬ p) :
    ∃ t, exec i s = .next t ∧ WrotePc s t (if p then s.pc + 4 else s.pc + imm) := by
  rw [← ite_not]
  exact branch_wrotePc_of_taken_iff hi taken

end

/-- Settles O12: rows 000 and 001 of BRANCH; BEQ is taken where the registers are equal, BNE where they are not. -/
theorem beqBneBranch : Obligations.BeqBneBranch := by
  refine ⟨fun _ _ h => ?beqWord, fun _ _ h => ?bneWord, fun rs1 rs2 _ s => ?results⟩
  case beqWord => exact decodeWord_branch h rfl
  case bneWord => exact decodeWord_branch h rfl
  case results =>
    obtain ⟨eq_iff, ne_iff, -⟩ := branchComparators (s.x rs1) (s.x rs2)
    exact ⟨branch_wrotePc_of_taken_iff rfl eq_iff, branch_wrotePc_of_taken_iff_not rfl ne_iff⟩

/-- Settles O13: rows 100 and 101 of BRANCH; the signed order is total, so BGE is taken where BLT is not. -/
theorem bltBgeBranchSigned : Obligations.BltBgeBranchSigned := by
  refine ⟨fun _ _ h => ?bltWord, fun _ _ h => ?bgeWord, fun rs1 rs2 _ s => ?results⟩
  case bltWord => exact decodeWord_branch h rfl
  case bgeWord => exact decodeWord_branch h rfl
  case results =>
    obtain ⟨-, -, lt_iff, ge_iff, -⟩ := branchComparators (s.x rs1) (s.x rs2)
    exact ⟨branch_wrotePc_of_taken_iff rfl lt_iff,
      branch_wrotePc_of_taken_iff_not rfl (ge_iff.trans not_lt.symm)⟩

/-- Settles O14: rows 110 and 111 of BRANCH; the unsigned order is total, so BGEU is taken where BLTU is not. -/
theorem bltuBgeuBranchUnsigned : Obligations.BltuBgeuBranchUnsigned := by
  refine ⟨fun _ _ h => ?bltuWord, fun _ _ h => ?bgeuWord, fun rs1 rs2 _ s => ?results⟩
  case bltuWord => exact decodeWord_branch h rfl
  case bgeuWord => exact decodeWord_branch h rfl
  case results =>
    obtain ⟨-, -, -, -, ltu_iff, geu_iff, -⟩ := branchComparators (s.x rs1) (s.x rs2)
    exact ⟨branch_wrotePc_of_taken_iff rfl ltu_iff,
      branch_wrotePc_of_taken_iff_not rfl (geu_iff.trans not_lt.symm)⟩

end Machine
end Sys2Proof
end

section
/-! Proofs about the loads and stores (ISA_SPEC, family 46_loads_stores): with LS_ENABLE false every word of
their two opcodes stops the core (R251). The stop records the word fetched, which for a word that names an
instruction is that instruction's encoding. -/

namespace Sys2Proof

/-! ### A LOAD or STORE word is its fields and its immediate -/

/-- The low 12 bits of the immediate of format I are bits 31:20 of the word (R97). -/
theorem field_immI (w : Word) {lo n : Nat} (h : lo + n ≤ 12) : field (immI w) lo n = field w (20 + lo) n := by
  refine BitVec.eq_of_getLsbD_eq fun k hk => ?_
  have bit : (if lo + k < 11 then 20 + (lo + k) else 31) = 20 + lo + k := by split <;> omega
  simp only [field, BitVec.getLsbD_extractLsb', getLsbD_immI w (lo + k) (by omega), bit]

/-- Bits 4:0 of the immediate of format S are bits 11:7 of the word (R98). -/
theorem field_immS_low (w : Word) : field (immS w) 0 5 = field w 7 5 := by
  refine BitVec.eq_of_getLsbD_eq fun k hk => ?_
  simp only [field, BitVec.getLsbD_extractLsb', Nat.zero_add, getLsbD_immS w k (by omega), if_pos hk]

/-- Bits 11:5 of the immediate of format S are bits 31:25 of the word (R98). -/
theorem field_immS_high (w : Word) : field (immS w) 5 7 = field w 25 7 := by
  refine BitVec.eq_of_getLsbD_eq fun k hk => ?_
  have bit : (if 5 + k < 5 then 7 + (5 + k) else if 5 + k < 11 then 20 + (5 + k) else 31) = 25 + k := by
    split_ifs <;> omega
  simp only [field, BitVec.getLsbD_extractLsb', getLsbD_immS w (5 + k) (by omega), bit]

theorem encI_fields {w : Word} {o : Opcode} (h : field w 0 7 = o.bits) :
    encI (immI w) (field w 15 5) (field w 12 3) (field w 7 5) o = w := by
  rw [encI_eq_encR, field_immI w (by decide), field_immI w (by decide)]
  exact encR_fields (h := h)

theorem encS_fields {w : Word} {o : Opcode} (h : field w 0 7 = o.bits) :
    encS (immS w) (field w 20 5) (field w 15 5) (field w 12 3) o = w := by
  rw [encS_eq_encR, field_immS_low, field_immS_high]
  exact encR_fields (h := h)

/-! ### The rows of LOAD and STORE -/

/-- Every row of LOAD is a data access, and its encoding is made of the fields that selected it. -/
theorem dispatchLoad_some {d : Decoded} {i : Instr} (h : dispatchLoad d = some i) :
    Machine.accessesData i = true ∧ encode i = encI d.imm d.rs1 d.funct3 d.rd .load := by
  unfold dispatchLoad at h
  split_ifs at h with f3 f3 f3 f3 f3 <;> cases h <;> exact ⟨rfl, by rw [f3]; rfl⟩

/-- Every row of STORE is a data access, and its encoding is made of the fields that selected it. -/
theorem dispatchStore_some {d : Decoded} {i : Instr} (h : dispatchStore d = some i) :
    Machine.accessesData i = true ∧ encode i = encS d.imm d.rs2 d.rs1 d.funct3 .store := by
  unfold dispatchStore at h
  split_ifs at h with f3 f3 f3 <;> cases h <;> exact ⟨rfl, by rw [f3]; rfl⟩

/-- A recognised opcode for which dispatch selects no row (R113). -/
theorem decodeWord_of_dispatch_none {strict : Bool} {w : Word} {o : Opcode} (h : field w 0 7 = o.bits)
    (hd : dispatch strict (decodedOf o w) = none) : decodeWord strict w = .error .noExecutePath := by
  simp only [decodeWord, decode_of_opcode h, hd]

/-- A LOAD or STORE word has no execute path, or it is the encoding of a data access (R260). -/
theorem decodeWord_loadStore_cases (strict : Bool) {w : Word}
    (hop : field w 0 7 = Opcode.load.bits ∨ field w 0 7 = Opcode.store.bits) :
    decodeWord strict w = .error .noExecutePath ∨
    ∃ i, decodeWord strict w = .ok i ∧ Machine.accessesData i = true ∧ encode i = w := by
  obtain ⟨o, hbits, row⟩ : ∃ o : Opcode, field w 0 7 = o.bits ∧ ∀ i,
      dispatch strict (decodedOf o w) = some i → Machine.accessesData i = true ∧ encode i = w := by
    rcases hop with hload | hstore
    · refine ⟨.load, hload, fun i hd => ?_⟩
      obtain ⟨access, word⟩ := dispatchLoad_some hd
      exact ⟨access, word.trans (encI_fields hload)⟩
    · refine ⟨.store, hstore, fun i hd => ?_⟩
      obtain ⟨access, word⟩ := dispatchStore_some hd
      exact ⟨access, word.trans (encS_fields hstore)⟩
  cases hd : dispatch strict (decodedOf o w) with
  | none => exact .inl (decodeWord_of_dispatch_none hbits hd)
  | some i => exact .inr ⟨i, decodeWord_of_dispatch hbits hd, row i hd⟩

namespace Machine

/-! ### Execution with LS_ENABLE false -/

section
variable {i : Instr} {s : State} (hl : s.cfg.lsEnable = false)
include hl

theorem load_of_lsDisabled {rd rs1 : Reg} {imm : Word} {n : Width} {ext : Word → Word} :
    load i rd rs1 imm n ext s = .next (s.raise (.dispatchError (encode i))) := by
  simp [load, hl]

theorem store_of_lsDisabled {rs2 rs1 : Reg} {imm : Word} {n : Width} :
    store i rs2 rs1 imm n s = .next (s.raise (.dispatchError (encode i))) := by
  simp [store, hl]

/-- A data access stops with its own word recorded, nothing read or written (R251). -/
theorem exec_of_lsDisabled (ha : accessesData i = true) :
    exec i s = .next (s.raise (.dispatchError (encode i))) := by
  cases i
  case lb | lh | lw | lbu | lhu => exact load_of_lsDisabled hl
  case sb | sh | sw => exact store_of_lsDisabled hl
  all_goals cases ha

end

/-- Settles O21: a word that names no row stops at dispatch, one that names a load or a store stops at its own
test of LS_ENABLE; the word recorded is the fetched one both times. -/
theorem loadsStoresDisabledStop : Obligations.LoadsStoresDisabledStop := by
  intro s w hw hl hop
  refine ⟨_, ?_, raise_stoppedPrecisely s.afterFetch _⟩
  rcases decodeWord_loadStore_cases s.cfg.strictDecode hop with hdec | ⟨i, hdec, access, word⟩
  · rw [step_fetched hw, hdec]
  · rw [step_fetched hw, hdec, ← word]
    exact exec_of_lsDisabled hl access

end Machine
end Sys2Proof
end

section
/-! Proofs about the SYSTEM instructions (ISA_SPEC, family 47_system_fence): every word of their opcode stops the
core (R272). ECALL and EBREAK are rows of the opcode map and stop at execution, every other word at dispatch. -/

namespace Sys2Proof

/-- A row of SYSTEM is ECALL or EBREAK, and its encoding is the word that selected it (R270, R271). -/
theorem dispatchSystem_some {d : Decoded} {i : Instr} (h : dispatchSystem d = some i) :
    (i = .ecall ∨ i = .ebreak) ∧ encode i = d.raw := by
  unfold dispatchSystem at h
  split_ifs at h with ecall ebreak <;> cases h
  · exact ⟨.inl rfl, by rw [ecall]; decide⟩
  · exact ⟨.inr rfl, by rw [ebreak]; decide⟩

/-- A SYSTEM word has no execute path, or it is the encoding of ECALL or EBREAK (R272). -/
theorem decodeWord_system_cases (strict : Bool) {w : Word} (hop : field w 0 7 = Opcode.system.bits) :
    decodeWord strict w = .error .noExecutePath ∨
    ∃ i, decodeWord strict w = .ok i ∧ (i = .ecall ∨ i = .ebreak) ∧ encode i = w := by
  cases hd : dispatch strict (decodedOf .system w) with
  | none => exact .inl (decodeWord_of_dispatch_none hop hd)
  | some i => exact .inr ⟨i, decodeWord_of_dispatch hop hd, dispatchSystem_some hd⟩

namespace Machine

/-- Settles O22: a word that names no row stops at dispatch, ECALL and EBREAK by their own effect; the word
recorded is the fetched one each time. -/
theorem systemWordsStop : Obligations.SystemWordsStop := by
  intro s w hw hop
  refine ⟨_, ?_, raise_stoppedPrecisely s.afterFetch _⟩
  rcases decodeWord_system_cases s.cfg.strictDecode hop with hdec | ⟨i, hdec, rfl | rfl, word⟩
  · rw [step_fetched hw, hdec]
  · rw [step_fetched hw, hdec, ← word]
    exact exec_ecall s.afterFetch
  · rw [step_fetched hw, hdec, ← word]
    exact exec_ebreak s.afterFetch

end Machine
end Sys2Proof
end

section
/-! Proofs about the decoder and the encoder as inverses (ISA_SPEC, family 30_encoding): the words of the rows
that other instructions' proofs have not yet read (LOAD, STORE, JALR, MISC-MEM, the shift immediates), and both
halves of the round trip. -/

namespace Sys2Proof

/-! ### Function fields that only STRICT_DECODE examines (R112) -/

theorem functFits_iff {strict : Bool} {n : Nat} {f : BitVec n} :
    functFits strict f = true ↔ strict = false ∨ f = 0 := by
  simp [functFits]

/-- An OP word whose funct7 is admitted selects the row it selects when STRICT_DECODE is false. -/
theorem dispatchOp_of_functFits {strict : Bool} {d : Decoded} (h : functFits strict d.funct7 = true) :
    dispatchOp strict d = dispatchOp false d := by
  have free : functFits false d.funct7 = true := functFits_iff.mpr (.inl rfl)
  simp only [dispatchOp, h, free]

/-- An OP-IMM word whose bits 31:25 are admitted selects the row it selects when STRICT_DECODE is false. -/
theorem dispatchOpImm_of_functFits {strict : Bool} {d : Decoded} (h : functFits strict d.funct7 = true) :
    dispatchOpImm strict d = dispatchOpImm false d := by
  have free : functFits false d.funct7 = true := functFits_iff.mpr (.inl rfl)
  simp only [dispatchOpImm, h, free]

/-! ### The words of the remaining rows

With the function fields numerals, `row` holds by computation. -/

section
variable {strict : Bool} {w : Word} {f3 : BitVec 3} {f7 : BitVec 7} {i : Instr}

theorem decodeWord_load (h : Machine.HasOpF3 w 0b0000011 f3)
    (row : dispatchLoad { decodedOf .load w with
      funct3 := f3, imm := (field w 20 12).signExtend 32 } = some i) : decodeWord strict w = .ok i := by
  obtain ⟨hop, rfl⟩ := h
  rw [← immI_eq_signExtend] at row
  exact decodeWord_of_dispatch (o := .load) hop row

/-- Format S sign-extends its two fields set side by side (R98). -/
theorem immS_eq_signExtend (w : Word) : immS w = (field w 25 7 ++ field w 7 5).signExtend 32 := by
  calc immS w
    _ = sext 12 (place 0 (field w 25 7 ++ field w 7 5)) := by rw [immS, place_append]
    _ = _ := sext_place_zero (by decide) _

theorem decodeWord_store (h : Machine.HasOpF3 w 0b0100011 f3)
    (row : dispatchStore { decodedOf .store w with
      funct3 := f3, imm := (field w 25 7 ++ field w 7 5).signExtend 32 } = some i) :
    decodeWord strict w = .ok i := by
  obtain ⟨hop, rfl⟩ := h
  rw [← immS_eq_signExtend] at row
  exact decodeWord_of_dispatch (o := .store) hop row

theorem decodeWord_fence (h : Machine.HasOpF3 w 0b0001111 0b000) :
    decodeWord strict w = .ok (.fence (field w 7 5) (field w 15 5) ((field w 20 12).signExtend 32)) := by
  obtain ⟨hop, h3⟩ := h
  rw [← immI_eq_signExtend]
  exact decodeWord_of_dispatch (o := .miscMem) hop (if_pos h3)

theorem decodeWord_jalr (hop : field w 0 7 = 0b1100111) (h3 : field w 12 3 = f3)
    (hf : functFits strict f3 = true) :
    decodeWord strict w = .ok (.jalr (field w 7 5) (field w 15 5) ((field w 20 12).signExtend 32) f3) := by
  subst h3
  rw [← immI_eq_signExtend]
  exact decodeWord_of_dispatch (o := .jalr) hop (if_pos hf)

theorem decodeWord_slli (h : Machine.HasOpF3 w 0b0010011 0b001)
    (hf : functFits strict (field w 25 7) = true) :
    decodeWord strict w = .ok (.slli (field w 7 5) (field w 15 5) ((field w 20 12).signExtend 32)) :=
  decodeWord_opImm h ((dispatchOpImm_of_functFits hf).trans rfl)

/-- The six OP rows whose funct7 is not listed (R202). -/
theorem decodeWord_op_of_functFits (h : Machine.HasOpF3 w 0b0110011 f3) (h7 : field w 25 7 = f7)
    (hf : functFits strict f7 = true)
    (row : dispatchOp false { decodedOf .op w with funct3 := f3, funct7 := f7 } = some i) :
    decodeWord strict w = .ok i :=
  decodeWord_op h h7 ((dispatchOp_of_functFits hf).trans row)

/-- A right shift's row is selected by bits 31:25, and its amount is bits 24:20 (R102, R179). -/
theorem decodeWord_shiftRight {C : Reg → Reg → BitVec 5 → Instr} (h : Machine.HasOpF3 w 0b0010011 0b101)
    (h7 : field w 25 7 = f7)
    (row : dispatchOpImm strict { decodedOf .opImm w with funct3 := 0b101, funct7 := f7 } =
      some (C (field w 7 5) (field w 15 5) (field (immI w) 0 5))) :
    decodeWord strict w = .ok (C (field w 7 5) (field w 15 5) (field w 20 5)) := by
  obtain ⟨hop, h3⟩ := h
  rw [field_immI w (by decide), ← h3, ← h7] at row
  exact decodeWord_of_dispatch (o := .opImm) hop row

end

/-! ### Decoding an encoded word, one lemma per format

`C` is the constructor and `row` says which words decode to it. The fields of an encoded word are the operands it
was made of, and its immediate is the operand where that is in range. -/

section
variable {strict : Bool} {o : Opcode} {f3 : BitVec 3} {f7 : BitVec 7} {rd rs1 rs2 : Reg} {imm : Word}

theorem decodeWord_encR {C : Reg → Reg → Reg → Instr}
    (row : ∀ w, Machine.HasOpF3 w o.bits f3 → field w 25 7 = f7 →
      decodeWord strict w = .ok (C (field w 7 5) (field w 15 5) (field w 20 5))) :
    decodeWord strict (encR f7 rs2 rs1 f3 rd o) = .ok (C rd rs1 rs2) := by
  simpa using row _ ⟨opcode_encR .., funct3_encR ..⟩ (funct7_encR ..)

theorem decodeWord_encI {C : Reg → Reg → Word → Instr} (fits : immFits12 imm = true)
    (row : ∀ w, Machine.HasOpF3 w o.bits f3 → field w 25 7 = field imm 5 7 →
      decodeWord strict w = .ok (C (field w 7 5) (field w 15 5) ((field w 20 12).signExtend 32))) :
    decodeWord strict (encI imm rs1 f3 rd o) = .ok (C rd rs1 imm) := by
  have value : immI (encI imm rs1 f3 rd o) = imm := (immI_encI ..).trans (sext_of_immFits12 fits)
  have decoded := row (encI imm rs1 f3 rd o) ⟨opcode_encI .., by simp [encI_eq_encR]⟩ (by simp [encI_eq_encR])
  rw [← immI_eq_signExtend, value] at decoded
  simpa [encI_eq_encR] using decoded

theorem decodeWord_encS {C : Reg → Reg → Word → Instr} (fits : immFits12 imm = true)
    (row : ∀ w, Machine.HasOpF3 w o.bits f3 → decodeWord strict w =
      .ok (C (field w 20 5) (field w 15 5) ((field w 25 7 ++ field w 7 5).signExtend 32))) :
    decodeWord strict (encS imm rs2 rs1 f3 o) = .ok (C rs2 rs1 imm) := by
  have value : immS (encS imm rs2 rs1 f3 o) = imm := (immS_encS ..).trans (sext_of_immFits12 fits)
  have decoded := row (encS imm rs2 rs1 f3 o) ⟨opcode_encS .., by simp [encS_eq_encR]⟩
  rw [← immS_eq_signExtend, value] at decoded
  simpa [encS_eq_encR] using decoded

theorem decodeWord_encB {C : Reg → Reg → Word → Instr} (fits : immFitsB imm = true)
    (row : ∀ w, Machine.HasOpF3 w o.bits f3 → decodeWord strict w =
      .ok (C (field w 15 5) (field w 20 5)
        ((field w 31 1 ++ field w 7 1 ++ field w 25 6 ++ field w 8 4 ++ 0#1).signExtend 32))) :
    decodeWord strict (encB imm rs2 rs1 f3 o) = .ok (C rs1 rs2 imm) := by
  obtain ⟨-, -, even⟩ := of_decide_eq_true fits
  have value : immB (encB imm rs2 rs1 f3 o) = imm :=
    (immB_encB _ _ _ _ _ ((toInt_even_iff imm).1 even)).trans (sext_of_immFitsB fits)
  have decoded := row (encB imm rs2 rs1 f3 o) ⟨opcode_encB .., funct3_encB ..⟩
  rw [← immB_eq_signExtend, value] at decoded
  simpa using decoded

theorem decodeWord_encU {C : Reg → Word → Instr} (fits : immFitsU imm = true)
    (row : ∀ w, field w 0 7 = o.bits → decodeWord strict w = .ok (C (field w 7 5) (immU w))) :
    decodeWord strict (encU imm rd o) = .ok (C rd imm) := by
  have value : immU (encU imm rd o) = imm :=
    immU_encU _ _ _ fun k hk => getLsbD_of_mod_4096 (of_decide_eq_true fits) hk
  simpa [value] using row (encU imm rd o) (opcode_encU ..)

theorem decodeWord_encJ {C : Reg → Word → Instr} (fits : immFitsJ imm = true)
    (row : ∀ w, field w 0 7 = o.bits → decodeWord strict w = .ok (C (field w 7 5) (immJ w))) :
    decodeWord strict (encJ imm rd o) = .ok (C rd imm) := by
  obtain ⟨-, -, even⟩ := of_decide_eq_true fits
  have value : immJ (encJ imm rd o) = imm :=
    (immJ_encJ _ _ _ ((toInt_even_iff imm).1 even)).trans (sext_of_immFitsJ fits)
  simpa [value] using row (encJ imm rd o) (opcode_encJ ..)

end

theorem decodeWord_ecall (strict : Bool) : decodeWord strict 0x00000073#32 = .ok .ecall :=
  decodeWord_of_dispatch (o := .system) (by decide) rfl

theorem decodeWord_ebreak (strict : Bool) : decodeWord strict 0x00100073#32 = .ok .ebreak :=
  decodeWord_of_dispatch (o := .system) (by decide) rfl

/-- Decoding the encoding of a well-formed instruction gives it back. -/
theorem decodeWord_encode {strict : Bool} {i : Instr} (hwf : i.wf strict = true) :
    decodeWord strict (encode i) = .ok i := by
  cases i
  case addi | slti | sltiu | xori | ori | andi =>
    exact decodeWord_encI hwf fun _ h _ => decodeWord_opImm h rfl
  case slli =>
    obtain ⟨fits, canonical⟩ := Bool.and_eq_true_iff.mp hwf
    exact decodeWord_encI fits fun _ h h7 => decodeWord_slli h (by rw [h7]; exact canonical)
  case srli | srai => exact decodeWord_encR fun _ h h7 => decodeWord_shiftRight h h7 rfl
  case add | sub | srl | sra => exact decodeWord_encR fun _ h h7 => decodeWord_op h h7 rfl
  case sll | slt | sltu | xor | or | and =>
    apply decodeWord_encR
    exact fun _ h h7 => decodeWord_op_of_functFits h h7 hwf rfl
  case lui => exact decodeWord_encU hwf fun _ hop => decodeWord_of_dispatch (o := .lui) hop rfl
  case auipc => exact decodeWord_encU hwf fun _ hop => decodeWord_of_dispatch (o := .auipc) hop rfl
  case jal => exact decodeWord_encJ hwf fun _ hop => decodeWord_of_dispatch (o := .jal) hop rfl
  case jalr =>
    obtain ⟨fits, canonical⟩ := Bool.and_eq_true_iff.mp hwf
    apply decodeWord_encI fits
    exact fun _ ⟨hop, h3⟩ _ => decodeWord_jalr hop h3 canonical
  case beq | bne | blt | bge | bltu | bgeu =>
    exact decodeWord_encB hwf fun _ h => decodeWord_branch h rfl
  case lb | lh | lw | lbu | lhu => exact decodeWord_encI hwf fun _ h _ => decodeWord_load h rfl
  case sb | sh | sw => exact decodeWord_encS hwf fun _ h => decodeWord_store h rfl
  case ecall => exact decodeWord_ecall strict
  case ebreak => exact decodeWord_ebreak strict
  case fence => exact decodeWord_encI hwf fun _ h _ => decodeWord_fence h

namespace Machine

/-- Settles O53: each format gives back the operands and, in range, the immediate; each row is selected by its own
function fields. -/
theorem decodeEncodeRoundTrip : Obligations.DecodeEncodeRoundTrip := fun _ _ hwf => decodeWord_encode hwf

end Machine

/-! ### An accepted word is the encoding of its instruction -/

section
variable {strict : Bool} {w : Word} {o : Opcode} {i : Instr}

/-- Two fields of one width are equal where their bits are. -/
theorem field_congr {v w : Word} {lo lo' n : Nat}
    (h : ∀ k, k < n → v.getLsbD (lo + k) = w.getLsbD (lo' + k)) : field v lo n = field w lo' n := by
  refine BitVec.eq_of_getLsbD_eq fun k hk => ?_
  simp only [field, BitVec.getLsbD_extractLsb', h k hk]

/-- Adjacent fields set side by side are one field. -/
theorem field_append (w : Word) (lo m n : Nat) : field w (lo + n) m ++ field w lo n = field w lo (m + n) :=
  BitVec.extractLsb'_append_extractLsb'_eq_extractLsb' (by omega)

/-- Format B is format R with the fields of the immediate where funct7 and rd stand (R92, R99). -/
theorem encB_eq_encR (imm : Word) (rs2 rs1 : Reg) (f3 : BitVec 3) (o : Opcode) :
    encB imm rs2 rs1 f3 o =
      encR (field imm 12 1 ++ field imm 5 6) rs2 rs1 f3 (field imm 1 4 ++ field imm 11 1) o := by
  simp only [encB, encR, place_append, BitVec.or_assoc]

theorem encB_fields (h : field w 0 7 = o.bits) :
    encB (immB w) (field w 20 5) (field w 15 5) (field w 12 3) o = w := by
  have bit12 : field (immB w) 12 1 = field w 31 1 := field_congr fun k hk => by
    rw [getLsbD_immB w _ (by omega)]; grind
  have bits10_5 : field (immB w) 5 6 = field w 25 6 := field_congr fun k hk => by
    rw [getLsbD_immB w _ (by omega)]; grind
  have bits4_1 : field (immB w) 1 4 = field w 8 4 := field_congr fun k hk => by
    rw [getLsbD_immB w _ (by omega)]; grind
  have bit11 : field (immB w) 11 1 = field w 7 1 := field_congr fun k hk => by
    rw [getLsbD_immB w _ (by omega)]; grind
  rw [encB_eq_encR, bit12, bits10_5, bits4_1, bit11, field_append w 25 1 6, field_append w 7 4 1]
  exact encR_fields (h := h)

/-- A word is its upper 20 bits, its rd field and its opcode (R92). -/
theorem upper_fields (h : field w 0 7 = o.bits) :
    place 12 (field w 12 20) ||| place 7 (field w 7 5) ||| place 0 o.bits = w := by
  calc place 12 (field w 12 20) ||| place 7 (field w 7 5) ||| place 0 o.bits
    _ = place 0 (field w 12 20 ++ field w 7 5 ++ field w 0 7) := by simp only [place_append, h]
    _ = place 0 (field w 0 32) := by rw [field_append w 7 20 5, field_append w 0 25 7]
    _ = w := by simp [place, field]

theorem encU_fields (h : field w 0 7 = o.bits) : encU (immU w) (field w 7 5) o = w := by
  have bits31_12 : field (immU w) 12 20 = field w 12 20 := field_congr fun k hk => by
    simp [-BitVec.getLsbD_eq_getElem, getLsbD_immU w (12 + k) (by omega)]
  rw [encU, bits31_12, upper_fields h]

theorem encJ_fields (h : field w 0 7 = o.bits) : encJ (immJ w) (field w 7 5) o = w := by
  have bit20 : field (immJ w) 20 1 = field w 31 1 := field_congr fun k hk => by
    rw [getLsbD_immJ w _ (by omega)]; grind
  have bits10_1 : field (immJ w) 1 10 = field w 21 10 := field_congr fun k hk => by
    rw [getLsbD_immJ w _ (by omega)]; grind
  have bit11 : field (immJ w) 11 1 = field w 20 1 := field_congr fun k hk => by
    rw [getLsbD_immJ w _ (by omega)]; grind
  have bits19_12 : field (immJ w) 12 8 = field w 12 8 := field_congr fun k hk => by
    rw [getLsbD_immJ w _ (by omega)]; grind
  have upper : field w 31 1 ++ field w 21 10 ++ field w 20 1 ++ field w 12 8 = field w 12 20 := by
    rw [field_append w 21 1 10, field_append w 20 11 1, field_append w 12 12 8]
  calc encJ (immJ w) (field w 7 5) o
    _ = place 12 (field w 31 1 ++ field w 21 10 ++ field w 20 1 ++ field w 12 8) |||
        place 7 (field w 7 5) ||| place 0 o.bits := by
      simp only [encJ, place_append, bit20, bits10_1, bit11, bits19_12]
    _ = w := by rw [upper, upper_fields h]

/-! The same for a word whose function fields are known. -/

variable {f3 : BitVec 3} {f7 : BitVec 7}

theorem encR_of_fields (hop : field w 0 7 = o.bits) (h3 : field w 12 3 = f3) (h7 : field w 25 7 = f7) :
    encR f7 (field w 20 5) (field w 15 5) f3 (field w 7 5) o = w := by
  subst h3 h7
  exact encR_fields (h := hop)

theorem encI_of_fields (hop : field w 0 7 = o.bits) (h3 : field w 12 3 = f3) :
    encI (immI w) (field w 15 5) f3 (field w 7 5) o = w := by
  subst h3
  exact encI_fields hop

theorem encB_of_fields (hop : field w 0 7 = o.bits) (h3 : field w 12 3 = f3) :
    encB (immB w) (field w 20 5) (field w 15 5) f3 o = w := by
  subst h3
  exact encB_fields hop

/-! ### Every row of the dispatch map is an encoding -/

/-- The funct3 that the tests of OP-IMM leave over. -/
theorem funct3_eq_101 (f : BitVec 3) (_ : f ≠ 0b000) (_ : f ≠ 0b010) (_ : f ≠ 0b011) (_ : f ≠ 0b100)
    (_ : f ≠ 0b110) (_ : f ≠ 0b111) (_ : f ≠ 0b001) : f = 0b101 := by bv_omega

/-- The funct3 that the tests of OP leave over. -/
theorem funct3_eq_111 (f : BitVec 3) (_ : f ≠ 0b000) (_ : f ≠ 0b101) (_ : f ≠ 0b001) (_ : f ≠ 0b010)
    (_ : f ≠ 0b011) (_ : f ≠ 0b100) (_ : f ≠ 0b110) : f = 0b111 := by bv_omega

/-- The instruction that a word selects is well formed, and its encoding is that word. -/
def Names (strict : Bool) (w : Word) (i : Instr) : Prop := i.wf strict = true ∧ encode i = w

theorem dispatchOpImm_names (hop : field w 0 7 = Opcode.opImm.bits)
    (h : dispatchOpImm strict (decodedOf .opImm w) = some i) : Names strict w i := by
  have fits : immFits12 (immI w) = true := immFits12_sext _
  have top : (immI w).extractLsb' 5 7 = field w 25 7 := field_immI w (lo := 5) (by decide)
  have amount : field (immI w) 0 5 = field w 20 5 := field_immI w (by decide)
  rcases ite_eq_iff.mp h with ⟨f000, ⟨⟩⟩ | ⟨f000, h⟩
  · exact ⟨fits, encI_of_fields hop f000⟩
  rcases ite_eq_iff.mp h with ⟨f010, ⟨⟩⟩ | ⟨f010, h⟩
  · exact ⟨fits, encI_of_fields hop f010⟩
  rcases ite_eq_iff.mp h with ⟨f011, ⟨⟩⟩ | ⟨f011, h⟩
  · exact ⟨fits, encI_of_fields hop f011⟩
  rcases ite_eq_iff.mp h with ⟨f100, ⟨⟩⟩ | ⟨f100, h⟩
  · exact ⟨fits, encI_of_fields hop f100⟩
  rcases ite_eq_iff.mp h with ⟨f110, ⟨⟩⟩ | ⟨f110, h⟩
  · exact ⟨fits, encI_of_fields hop f110⟩
  rcases ite_eq_iff.mp h with ⟨f111, ⟨⟩⟩ | ⟨f111, h⟩
  · exact ⟨fits, encI_of_fields hop f111⟩
  rcases ite_eq_iff.mp h with ⟨f001, h⟩ | ⟨f001, h⟩
  · rcases ite_eq_iff.mp h with ⟨canonical, ⟨⟩⟩ | ⟨-, ⟨⟩⟩
    exact ⟨Bool.and_eq_true_iff.mpr ⟨fits, top ▸ canonical⟩, encI_of_fields hop f001⟩
  have f101 := funct3_eq_101 _ f000 f010 f011 f100 f110 f111 f001
  rcases ite_eq_iff.mp h with ⟨f7, ⟨⟩⟩ | ⟨-, h⟩
  · exact ⟨rfl, amount ▸ encR_of_fields hop f101 f7⟩
  rcases ite_eq_iff.mp h with ⟨f7, ⟨⟩⟩ | ⟨-, ⟨⟩⟩
  exact ⟨rfl, amount ▸ encR_of_fields hop f101 f7⟩

theorem dispatchOp_names (hop : field w 0 7 = Opcode.op.bits)
    (h : dispatchOp strict (decodedOf .op w) = some i) : Names strict w i := by
  rcases ite_eq_iff.mp h with ⟨f000, h⟩ | ⟨f000, h⟩
  · rcases ite_eq_iff.mp h with ⟨f7, ⟨⟩⟩ | ⟨-, h⟩
    · exact ⟨rfl, encR_of_fields hop f000 f7⟩
    rcases ite_eq_iff.mp h with ⟨f7, ⟨⟩⟩ | ⟨-, ⟨⟩⟩
    exact ⟨rfl, encR_of_fields hop f000 f7⟩
  rcases ite_eq_iff.mp h with ⟨f101, h⟩ | ⟨f101, h⟩
  · rcases ite_eq_iff.mp h with ⟨f7, ⟨⟩⟩ | ⟨-, h⟩
    · exact ⟨rfl, encR_of_fields hop f101 f7⟩
    rcases ite_eq_iff.mp h with ⟨f7, ⟨⟩⟩ | ⟨-, ⟨⟩⟩
    exact ⟨rfl, encR_of_fields hop f101 f7⟩
  rcases ite_eq_iff.mp h with ⟨canonical, h⟩ | ⟨-, ⟨⟩⟩
  rcases ite_eq_iff.mp h with ⟨f001, ⟨⟩⟩ | ⟨f001, h⟩
  · exact ⟨canonical, encR_of_fields hop f001 rfl⟩
  rcases ite_eq_iff.mp h with ⟨f010, ⟨⟩⟩ | ⟨f010, h⟩
  · exact ⟨canonical, encR_of_fields hop f010 rfl⟩
  rcases ite_eq_iff.mp h with ⟨f011, ⟨⟩⟩ | ⟨f011, h⟩
  · exact ⟨canonical, encR_of_fields hop f011 rfl⟩
  rcases ite_eq_iff.mp h with ⟨f100, ⟨⟩⟩ | ⟨f100, h⟩
  · exact ⟨canonical, encR_of_fields hop f100 rfl⟩
  rcases ite_eq_iff.mp h with ⟨f110, ⟨⟩⟩ | ⟨f110, ⟨⟩⟩
  · exact ⟨canonical, encR_of_fields hop f110 rfl⟩
  · exact ⟨canonical, encR_of_fields hop (funct3_eq_111 _ f000 f101 f001 f010 f011 f100 f110) rfl⟩

theorem dispatchBranch_names (hop : field w 0 7 = Opcode.branch.bits)
    (h : dispatchBranch (decodedOf .branch w) = some i) : Names strict w i := by
  unfold dispatchBranch at h
  split_ifs at h with f3 f3 f3 f3 f3 f3 <;> cases h <;> exact ⟨immFitsB_immB w, encB_of_fields hop f3⟩

theorem dispatchLoad_names (hop : field w 0 7 = Opcode.load.bits)
    (h : dispatchLoad (decodedOf .load w) = some i) : Names strict w i := by
  refine ⟨?_, (dispatchLoad_some h).2.trans (encI_fields hop)⟩
  unfold dispatchLoad at h
  split_ifs at h <;> cases h <;> exact immFits12_sext _

theorem dispatchStore_names (hop : field w 0 7 = Opcode.store.bits)
    (h : dispatchStore (decodedOf .store w) = some i) : Names strict w i := by
  refine ⟨?_, (dispatchStore_some h).2.trans (encS_fields hop)⟩
  unfold dispatchStore at h
  split_ifs at h <;> cases h <;> exact immFits12_sext _

theorem dispatchSystem_names (h : dispatchSystem (decodedOf .system w) = some i) : Names strict w i := by
  obtain ⟨rfl | rfl, word⟩ := dispatchSystem_some h
  · exact ⟨rfl, word⟩
  · exact ⟨rfl, word⟩

theorem dispatchMiscMem_names (hop : field w 0 7 = Opcode.miscMem.bits)
    (h : dispatchMiscMem (decodedOf .miscMem w) = some i) : Names strict w i := by
  unfold dispatchMiscMem at h
  split_ifs at h with f3
  cases h
  exact ⟨immFits12_sext _, encI_of_fields hop f3⟩

theorem dispatch_jalr_names (hop : field w 0 7 = Opcode.jalr.bits)
    (h : dispatch strict (decodedOf .jalr w) = some i) : Names strict w i := by
  change (if functFits strict (field w 12 3) then _ else _) = _ at h
  split_ifs at h with canonical
  cases h
  exact ⟨Bool.and_eq_true_iff.mpr ⟨immFits12_sext _, canonical⟩, encI_fields hop⟩

/-- Whatever row dispatch selects, the word is its encoding. -/
theorem dispatch_names (hop : field w 0 7 = o.bits) (h : dispatch strict (decodedOf o w) = some i) :
    Names strict w i := by
  cases o
  case op => exact dispatchOp_names hop h
  case opImm => exact dispatchOpImm_names hop h
  case load => exact dispatchLoad_names hop h
  case jalr => exact dispatch_jalr_names hop h
  case system => exact dispatchSystem_names h
  case miscMem => exact dispatchMiscMem_names hop h
  case store => exact dispatchStore_names hop h
  case branch => exact dispatchBranch_names hop h
  case lui => cases h; exact ⟨immFitsU_immU w, encU_fields hop⟩
  case auipc => cases h; exact ⟨immFitsU_immU w, encU_fields hop⟩
  case jal => cases h; exact ⟨immFitsJ_immJ w, encJ_fields hop⟩

/-- An accepted word is the encoding of the well-formed instruction it gives. -/
theorem decodeWord_names (h : decodeWord strict w = .ok i) : Names strict w i := by
  rcases decodeWord_cases strict w with ⟨-, hdec⟩ | ⟨o, -, -, hdec⟩ | ⟨o, j, hop, hrow, hdec⟩ <;>
    cases hdec.symm.trans h
  exact dispatch_names hop hrow

end

namespace Machine

/-- Settles O54: each row of the dispatch map keeps every field of the word that selected it. -/
theorem decodeAcceptsOnlyEncodings : Obligations.DecodeAcceptsOnlyEncodings := fun _ _ _ h => decodeWord_names h

end Machine

/-! ### STRICT_DECODE -/

/-- The instructions that have an encoding under STRICT_DECODE have one without it. -/
theorem wf_of_strict {i : Instr} (h : i.wf true = true) : i.wf false = true := by
  cases i
  case slli | jalr =>
    obtain ⟨fits, -⟩ := Bool.and_eq_true_iff.mp h
    exact Bool.and_eq_true_iff.mpr ⟨fits, rfl⟩
  case sll | slt | sltu | xor | or | and => rfl
  all_goals exact h

namespace Machine

/-- Settles O56: an accepted word is the encoding of a well-formed instruction, so the round trip of the other
setting decodes it too; execution looks at no field but the operands. -/
theorem strictDecodeOnlyRejectsMore : Obligations.StrictDecodeOnlyRejectsMore := by
  refine ⟨fun w i h => ?strict, fun w i h hwf => ?canonical, fun _ _ _ _ _ _ => ?funct7, fun _ _ _ _ _ _ => ?funct3⟩
  case strict =>
    obtain ⟨hwf, rfl⟩ := decodeWord_names h
    exact decodeWord_encode (wf_of_strict hwf)
  case canonical =>
    obtain ⟨-, rfl⟩ := decodeWord_names h
    exact decodeWord_encode hwf
  case funct7 => exact ⟨rfl, rfl, rfl, rfl, rfl, rfl⟩
  case funct3 => rfl

end Machine
end Sys2Proof
end

section
/-! Proofs about the ALU (ISA_SPEC, family 40_cycle_and_units, R142 to R152) and the instructions whose result is
one of its shifts, comparisons and bitwise operations (families 41_op_imm and 42_op). -/

namespace Sys2Proof.Machine

/-! ### The shifts as integer arithmetic -/

theorem alu_sll_eq_ofNat (a b : Word) :
    alu .sll a b = BitVec.ofNat 32 (a.toNat * 2 ^ (b.toNat % 32)) := by
  apply BitVec.eq_of_toNat_eq
  rw [alu, shiftAmount, BitVec.toNat_shiftLeft, Nat.shiftLeft_eq, BitVec.toNat_ofNat]

theorem toNat_alu_srl (a b : Word) : (alu .srl a b).toNat = a.toNat / 2 ^ (b.toNat % 32) := by
  rw [alu, shiftAmount, BitVec.toNat_ushiftRight, Nat.shiftRight_eq_div_pow]

theorem toInt_alu_sra (a b : Word) : (alu .sra a b).toInt = a.toInt / 2 ^ (b.toNat % 32) := by
  rw [alu, shiftAmount, BitVec.toInt_sshiftRight, Int.shiftRight_eq_div_pow]
  norm_cast

/-- Settles O59: the sum, the difference and the shifts by their integer values, the bitwise operations by their
bits, the comparisons by the flag they give. -/
theorem aluOperations : Obligations.AluOperations := by
  intro a b
  refine ⟨BitVec.toNat_add a b, ?sub, fun _ _ => BitVec.getLsbD_and, fun _ _ => BitVec.getLsbD_or,
    fun _ _ => BitVec.getLsbD_xor, ?sll, toNat_alu_srl a b, toInt_alu_sra a b, ?slt, ?sltu⟩
  case sub => rw [alu]; bv_omega
  case sll => rw [alu_sll_eq_ofNat, BitVec.toNat_ofNat]
  case slt => rw [alu_slt_eq_ite]; split <;> rfl
  case sltu => rw [alu_sltu_eq_ite]; split <;> rfl

/-! ### The shifts in the statements' spelling -/

theorem alu_srl_eq_ofNat (a b : Word) : alu .srl a b = BitVec.ofNat 32 (a.toNat / 2 ^ (b.toNat % 32)) := by
  rw [← toNat_alu_srl, BitVec.ofNat_toNat, BitVec.setWidth_eq]

theorem alu_sra_eq_ofInt (a b : Word) : alu .sra a b = BitVec.ofInt 32 (a.toInt / 2 ^ (b.toNat % 32)) := by
  rw [← toInt_alu_sra, BitVec.ofInt_toInt]

/-- A five-bit amount is its own remainder modulo 32. -/
theorem toNat_shamtOperand_mod (sh : BitVec 5) : (shamtOperand sh).toNat % 32 = sh.toNat := by
  rw [shamtOperand, BitVec.toNat_setWidth_of_le (by decide), Nat.mod_eq_of_lt sh.isLt]

/-- Settles O4: rows 001 and 101 of OP-IMM; the ALU's shifts, SLLI's by the low five bits of its immediate. -/
theorem shiftImmediates : Obligations.ShiftImmediates := by
  refine ⟨fun _ _ h h7 => ?slliWord, fun _ _ h => ⟨fun h7 => ?srliWord, fun h7 => ?sraiWord⟩,
    fun _ _ _ _ => ?slli, fun _ _ sh _ => ?srli, fun _ _ sh _ => ?srai⟩
  case slliWord => exact decodeWord_slli h (functFits_iff.mpr h7)
  case srliWord => exact decodeWord_shiftRight h h7 rfl
  case sraiWord => exact decodeWord_shiftRight h h7 rfl
  case slli => exact aluImm_wroteReg rfl (alu_sll_eq_ofNat _ _)
  case srli =>
    rw [← toNat_shamtOperand_mod sh]
    exact aluImm_wroteReg rfl (alu_srl_eq_ofNat _ _)
  case srai =>
    rw [← toNat_shamtOperand_mod sh]
    exact aluImm_wroteReg rfl (alu_sra_eq_ofInt _ _)

/-- Settles O6: rows 001 and 101 of OP, the latter split by funct7, and the ALU's shifts. -/
theorem shiftsByLowFiveBits : Obligations.ShiftsByLowFiveBits := by
  refine ⟨fun _ _ h h7 => ?sllWord, fun _ _ h => ⟨fun h7 => ?srlWord, fun h7 => ?sraWord⟩,
    fun _ _ _ _ _ => ?sll, fun _ _ _ _ => ?srl, fun _ _ _ _ => ?sra⟩
  case sllWord => exact decodeWord_op_of_functFits h rfl (functFits_iff.mpr h7) rfl
  case srlWord => exact decodeWord_op h h7 rfl
  case sraWord => exact decodeWord_op h h7 rfl
  case sll => exact aluReg_wroteReg rfl (alu_sll_eq_ofNat _ _)
  case srl => exact aluReg_wroteReg rfl (alu_srl_eq_ofNat _ _)
  case sra => exact aluReg_wroteReg rfl (alu_sra_eq_ofInt _ _)

/-- Settles O7: rows 010 and 011 of OP, and the ALU's signed and unsigned comparison. -/
theorem sltSltuCompare : Obligations.SltSltuCompare := by
  refine ⟨fun _ _ h h7 => ?sltWord, fun _ _ h h7 => ?sltuWord, fun _ _ _ _ _ => ⟨?slt, ?sltu⟩⟩
  case sltWord => exact decodeWord_op_of_functFits h rfl (functFits_iff.mpr h7) rfl
  case sltuWord => exact decodeWord_op_of_functFits h rfl (functFits_iff.mpr h7) rfl
  case slt => exact aluReg_wroteReg rfl (alu_slt_eq_ite _ _)
  case sltu => exact aluReg_wroteReg rfl (alu_sltu_eq_ite _ _)

/-- Settles O8: rows 100, 110 and 111 of OP; the ALU's operations are the bitwise ones. -/
theorem xorOrAndBitwise : Obligations.XorOrAndBitwise := by
  refine ⟨fun _ _ h h7 => ?xorWord, fun _ _ h h7 => ?orWord, fun _ _ h h7 => ?andWord,
    fun _ _ _ _ _ => ⟨?xor, ?or, ?and⟩⟩
  case xorWord => exact decodeWord_op_of_functFits h rfl (functFits_iff.mpr h7) rfl
  case orWord => exact decodeWord_op_of_functFits h rfl (functFits_iff.mpr h7) rfl
  case andWord => exact decodeWord_op_of_functFits h rfl (functFits_iff.mpr h7) rfl
  case xor => exact aluReg_wroteReg rfl rfl
  case or => exact aluReg_wroteReg rfl rfl
  case and => exact aluReg_wroteReg rfl rfl

end Sys2Proof.Machine
end

section
/-! Proofs about JALR, the loads' and stores' words, and the instructions whose effect is a stop (ISA_SPEC,
families 44_jumps, 46_loads_stores, 47_system_fence). -/

namespace Sys2Proof.Machine

/-! ### JALR -/

/-- Clearing bit 0 rounds down to an even number. -/
theorem clear_bit_zero (v : Word) : v &&& 0xFFFFFFFE#32 = BitVec.ofNat 32 (v.toNat / 2 * 2) := by
  have mask : (0xFFFFFFFE#32 : Word) = ~~~1#32 := by decide
  have shifts : v &&& 0xFFFFFFFE#32 = v >>> 1 <<< 1 := by
    rw [mask]
    refine BitVec.eq_of_getLsbD_eq fun k hk => ?_
    cases k with
    | zero => simp
    | succ k =>
      simp only [BitVec.getLsbD_and, BitVec.getLsbD_not, BitVec.getLsbD_one, BitVec.getLsbD_shiftLeft,
        BitVec.getLsbD_ushiftRight]
      simp [hk, Nat.add_comm]
  apply BitVec.eq_of_toNat_eq
  rw [shifts, BitVec.toNat_shiftLeft, Nat.shiftLeft_eq, BitVec.toNat_ushiftRight, Nat.shiftRight_eq_div_pow,
    BitVec.toNat_ofNat, pow_one]

/-- The target of R221 is the sum modulo 2^32 rounded down to an even address. -/
theorem jalrTarget_eq_ofNat (s : State) (rs1 : Reg) (imm : Word) :
    jalrTarget s rs1 imm = BitVec.ofNat 32 (((s.x rs1).toNat + imm.toNat) % 2 ^ 32 / 2 * 2) := by
  rw [jalrTarget, clear_bit_zero, BitVec.toNat_add]

/-- Settles O11: funct3 decides the row under STRICT_DECODE alone; the target is computed from the state before
x[rd] is written. -/
theorem jalrLinksAndJumps : Obligations.JalrLinksAndJumps := by
  refine ⟨fun strict w hop => ⟨fun h3 => ?accepted, fun ⟨hs, h3⟩ => ?rejected⟩, fun rd rs1 imm f s => ?links⟩
  case accepted => exact decodeWord_jalr hop rfl (functFits_iff.mpr h3)
  case rejected =>
    have refused : ¬ functFits strict (field w 12 3) = true := by simpa [functFits_iff, hs] using h3
    exact decodeWord_of_dispatch_none (o := .jalr) hop (if_neg refused)
  case links =>
    rw [← linkAddr_eq_ofNat, ← jalrTarget_eq_ofNat]
    exact ⟨_, rfl, setX_jump_wroteReg s rd (linkAddr s) (jalrTarget s rs1 imm)⟩

/-! ### Words of loads and stores -/

/-- Settles O19: each row of LOAD and of STORE is selected by funct3. -/
theorem loadStoreWordsDecode : Obligations.LoadStoreWordsDecode := by
  intro strict w
  refine ⟨fun h => ?lb, fun h => ?lh, fun h => ?lw, fun h => ?lbu, fun h => ?lhu, fun h => ?sb, fun h => ?sh,
    fun h => ?sw⟩
  case lb | lh | lw | lbu | lhu => exact decodeWord_load h rfl
  case sb | sh | sw => exact decodeWord_store h rfl

/-! ### Instructions that stop -/

/-- Settles O23: the two SYSTEM words and the FENCE words select their rows; the effect of each is `raise`. -/
theorem ecallEbreakFenceStop : Obligations.EcallEbreakFenceStop :=
  ⟨decodeWord_ecall, decodeWord_ebreak, fun _ _ h => decodeWord_fence h,
    fun s => ⟨_, rfl, raise_stoppedPrecisely s _⟩, fun s => ⟨_, rfl, raise_stoppedPrecisely s _⟩,
    fun _ _ _ s => ⟨_, rfl, raise_stoppedPrecisely s _⟩⟩

/-- Settles O57: the spec's words, decoded by computation (95_test_vectors.md). -/
theorem writtenOutWordsDecode : Obligations.WrittenOutWordsDecode := by
  unfold Obligations.WrittenOutWordsDecode
  decide

end Sys2Proof.Machine
end

section
/-! Proofs about the bus and the accesses that RAM answers (ISA_SPEC, families 20_memory and 46_loads_stores):
which device answers, what a well-formed configuration excludes, and the loads and stores that complete in RAM or
that no device owns. -/

namespace Sys2Proof.Machine

/-! ### Which device answers (R57) -/

/-- `findDevice` is the first element that contains the access. -/
theorem findDevice_eq_find? (addr : Word) (n : Width) :
    ∀ ds : List Device, findDevice ds addr n = ds.find? fun d => deviceContains d addr n
  | [] => rfl
  | d :: ds => by
    rw [findDevice, findDevice_eq_find? addr n ds, List.find?_cons]
    cases deviceContains d addr n <;> rfl

/-- Settles O48: the characterisation of a list's first element with a property, for `deviceContains`. -/
theorem firstContainingDeviceAnswers : Obligations.FirstContainingDeviceAnswers := by
  intro ds addr n
  simp only [findDevice_eq_find?, ← deviceContains_iff]
  refine ⟨fun d => ?first, List.find?_eq_none⟩
  case first =>
    rw [List.find?_eq_some_iff_append]
    constructor
    · rintro ⟨contains, pre, post, split, before⟩
      exact ⟨pre, post, split, contains, fun e he => by simpa using before e he⟩
    · rintro ⟨pre, post, split, contains, before⟩
      exact ⟨contains, pre, post, split, fun e he => by simpa using before e he⟩

/-! ### Well-formed configurations (R53, R56, R313) -/

theorem configWf_iff (c : Config) : configWf c = true ↔
    4 ≤ c.ramSize ∧ c.ramBase.toNat + c.ramSize ≤ 2 ^ 32 ∧ c.imageLen ≤ c.ramSize ∧
    devicesWf c.devices = true ∧ ramDevice c ∈ c.devices ∧
    ∀ d ∈ c.devices, d.kind = .ram → d = ramDevice c := by
  simp only [configWf, Bool.and_eq_true, decide_eq_true_eq, List.all_eq_true, and_assoc]

theorem not_shared_of_deviceDisjoint {d e : Device} (h : deviceDisjoint d e = true) (a : Nat) :
    ¬ ((d.start.toNat ≤ a ∧ a ≤ d.last.toNat) ∧ e.start.toNat ≤ a ∧ a ≤ e.last.toNat) := by
  simp only [deviceDisjoint, decide_eq_true_eq, BitVec.lt_def] at h
  omega

/-- Two registered devices that both own a byte address are one device (R56). -/
theorem eq_of_shared_address {a : Nat} : ∀ {ds : List Device}, devicesWf ds = true → ∀ {d e : Device},
    d ∈ ds → e ∈ ds → d.start.toNat ≤ a ∧ a ≤ d.last.toNat → e.start.toNat ≤ a ∧ a ≤ e.last.toNat → d = e
  | f :: ds, h, d, e, hd, he, had, hae => by
    simp only [devicesWf, Bool.and_eq_true, List.all_eq_true] at h
    obtain ⟨⟨-, disjoint⟩, rest⟩ := h
    rcases List.mem_cons.mp hd with rfl | hd' <;> rcases List.mem_cons.mp he with rfl | he'
    · rfl
    · exact absurd ⟨had, hae⟩ (not_shared_of_deviceDisjoint (disjoint e he') a)
    · exact absurd ⟨hae, had⟩ (not_shared_of_deviceDisjoint (disjoint d hd') a)
    · exact eq_of_shared_address rest hd' he' had hae

section
variable {c : Config} (hc : configWf c = true) {addr : Word} {n : Width}
include hc

/-- RAM's range does not wrap: its last byte is `RAM_BASE + RAM_SIZE - 1` on integers (R62). -/
theorem ramDevice_last : (ramDevice c).last.toNat = c.ramBase.toNat + c.ramSize - 1 := by
  obtain ⟨size, top, -⟩ := (configWf_iff c).mp hc
  have base := c.ramBase.isLt
  simp only [ramDevice, BitVec.toNat_add, BitVec.toNat_ofNat]
  omega

theorem ramDevice_contains_iff : deviceContains (ramDevice c) addr n = true ↔
    c.ramBase.toNat ≤ addr.toNat ∧ addr.toNat + n.bytes ≤ c.ramBase.toNat + c.ramSize := by
  have start : (ramDevice c).start = c.ramBase := rfl
  obtain ⟨size, -⟩ := (configWf_iff c).mp hc
  have bytes := width_pos n
  rw [deviceContains_iff, ramDevice_last hc, start]
  omega

/-- A device of RAM's kind that answers an access contains it in RAM's own range. -/
theorem range_of_ram {d : Device} (hd : findDevice c.devices addr n = some d) (hk : d.kind = .ram) :
    c.ramBase.toNat ≤ addr.toNat ∧ addr.toNat + n.bytes ≤ c.ramBase.toNat + c.ramSize := by
  obtain ⟨-, -, -, -, -, unique⟩ := (configWf_iff c).mp hc
  obtain ⟨registered, contains⟩ := findDevice_some hd
  rw [unique d registered hk] at contains
  exact (ramDevice_contains_iff hc).mp contains

/-- Some device answers an access inside RAM's range. -/
theorem findDevice_of_range
    (range : c.ramBase.toNat ≤ addr.toNat ∧ addr.toNat + n.bytes ≤ c.ramBase.toNat + c.ramSize) :
    ∃ d, findDevice c.devices addr n = some d := by
  obtain ⟨-, -, -, -, registered, -⟩ := (configWf_iff c).mp hc
  have contains := (ramDevice_contains_iff hc).mpr range
  rw [← Option.isSome_iff_exists, findDevice_eq_find?, List.find?_isSome]
  exact ⟨ramDevice c, registered, contains⟩

/-- RAM's own check passes on every byte of an access that RAM answers (R65). -/
theorem inRam_of_ram {d : Device} (hd : findDevice c.devices addr n = some d) (hk : d.kind = .ram) :
    ∀ k, k < n.bytes → inRam c (addr.toNat + k) = true := by
  obtain ⟨low, high⟩ := range_of_ram hc hd hk
  intro k hk
  rw [inRam_iff]
  omega

theorem memRead_ne_outOfBounds {m : Memory} {io : List DeviceAccess} {a : Nat} :
    memRead c m io addr n ≠ .error (.outOfBounds a) := by
  intro failed
  rcases memRead_cases c m io addr n with
    ⟨-, h⟩ | ⟨d, hd, hk, ⟨v, -, h⟩ | ⟨b, hr, -⟩⟩ | ⟨d, id, -, -, ⟨v, -, h⟩ | ⟨b, -, h⟩⟩
  case inr.inl.inr => cases hr.symm.trans (ramRead_inRam (inRam_of_ram hc hd hk))
  all_goals cases h.symm.trans failed

theorem memWrite_ne_outOfBounds {m m' : Memory} {io : List DeviceAccess} {v : Word} {a : Nat} :
    memWrite c m io addr n v ≠ .failed (.outOfBounds a) m' := by
  intro failed
  rcases memWrite_cases c m io addr n v with
    ⟨-, h⟩ | ⟨d, hd, hk, ⟨m', -, h⟩ | ⟨b, m', hw, -⟩⟩ | ⟨d, id, -, -, ⟨-, h⟩ | ⟨b, -, h⟩⟩
  case inr.inl.inr => cases hw.symm.trans (ramWrite_inRam (inRam_of_ram hc hd hk) m v)
  all_goals cases h.symm.trans failed

end

/-- In a well-formed configuration every access that RAM answers lies in its buffer. -/
theorem ramAccess_of_configWf {s : State} (hc : configWf s.cfg = true) {addr : Word} {n : Width} {d : Device}
    (hd : findDevice s.cfg.devices addr n = some d) (hk : d.kind = .ram) : RamAccess s addr n :=
  ⟨⟨d, hd, hk⟩, inRam_of_ram hc hd hk⟩

/-! ### Accesses that no device owns (R60) -/

theorem memRead_unmapped {c : Config} {addr : Word} {n : Width} (h : findDevice c.devices addr n = none)
    (m : Memory) (io : List DeviceAccess) : memRead c m io addr n = .error (.noDeviceMapped addr n.bytes) := by
  simp only [memRead, h]

theorem memWrite_unmapped {c : Config} {addr : Word} {n : Width} (h : findDevice c.devices addr n = none)
    (m : Memory) (io : List DeviceAccess) (v : Word) :
    memWrite c m io addr n v = .failed (.noDeviceMapped addr n.bytes) m := by
  simp only [memWrite, h]

/-- Settles O51: with RAM alone a device answers exactly the accesses inside RAM's range, and RAM completes what it
answers; its own check passes wherever RAM answers. -/
theorem accessSucceedsExactlyInsideRam : Obligations.AccessSucceedsExactlyInsideRam := by
  intro c m io addr n hc
  refine ⟨fun only => ?inside, fun _ => memRead_ne_outOfBounds hc, fun _ _ _ => memWrite_ne_outOfBounds hc⟩
  case inside =>
    cases hd : findDevice c.devices addr n with
    | none =>
      have outside : ¬ (c.ramBase.toNat ≤ addr.toNat ∧
          addr.toNat + n.bytes ≤ c.ramBase.toNat + c.ramSize) := fun range => by
        obtain ⟨d, answered⟩ := findDevice_of_range hc range
        cases answered.symm.trans hd
      simp only [memRead_unmapped hd, memWrite_unmapped hd, reduceCtorEq, exists_false, false_iff]
      exact ⟨outside, fun _ => outside⟩
    | some d =>
      have ram := kind_of_onlyRam only d hd
      have range := range_of_ram hc hd ram
      have access : RamAccess { State.reset with cfg := c } addr n := ramAccess_of_configWf hc hd ram
      exact ⟨iff_of_true ⟨_, memRead_of_ramAccess access m io⟩ range,
        fun v => iff_of_true ⟨_, memWrite_of_ramAccess access m io v⟩ range⟩

/-! ### The other devices under an access that RAM answers -/

section
variable {s : State} {addr : Word} {n : Width} (h : RamAccess s addr n)
include h

theorem kind_of_ramAccess (d : Device) (hd : findDevice s.cfg.devices addr n = some d) : d.kind = .ram := by
  obtain ⟨⟨e, he, hk⟩, -⟩ := h
  cases he.symm.trans hd
  exact hk

theorem afterRead_of_ramAccess : s.afterRead addr n = s := by
  rw [State.afterRead, ioAfterRead_of_not_peripheral (kind_of_ramAccess h)]

theorem afterWrite_of_ramAccess (m : Memory) (v : Word) : s.afterWrite m addr n v = s.withMem m := by
  rw [State.afterWrite, ioAfterWrite_of_not_peripheral (kind_of_ramAccess h), State.withMem]

end

/-! ### Values of one, two and four bytes in the statements' spelling -/

section
variable (m : Memory) (a : Nat)

theorem byteSum_one : byteSum m a 1 = (m.read a).toNat := by simp [byteSum]

theorem byteSum_two : byteSum m a 2 = (m.read a).toNat + 2 ^ 8 * (m.read (a + 1)).toNat := by
  rw [byteSum_succ, byteSum_one]

theorem byteSum_four : byteSum m a 4 = (m.read a).toNat + 2 ^ 8 * (m.read (a + 1)).toNat +
    2 ^ 16 * (m.read (a + 2)).toNat + 2 ^ 24 * (m.read (a + 3)).toNat := by
  simp only [byteSum_succ_last m a 3, byteSum_succ_last m a 2, byteSum_two]

/-- Zero-extending the value of `n` bytes keeps it. -/
theorem zext_byteSum {n : Nat} (hn : n ≤ 4) :
    zext (8 * n) (BitVec.ofNat 32 (byteSum m a n)) = BitVec.ofNat 32 (byteSum m a n) := by
  have bound := byteSum_lt m a n
  have fits : 2 ^ (8 * n) ≤ 2 ^ 32 := Nat.pow_le_pow_right (by decide) (by omega)
  rw [zext_eq_ofNat, BitVec.toNat_ofNat, Nat.mod_eq_of_lt (bound.trans_le fits), Nat.mod_eq_of_lt bound]

/-- Sign-extending a value that a bit string holds is extending the bit string. -/
theorem sext_ofNat_toNat {n : Nat} (hn : n ≤ 32) (v : BitVec n) :
    sext n (BitVec.ofNat 32 v.toNat) = BitVec.ofInt 32 v.toInt := by
  rw [sext, BitVec.ofNat_toNat, BitVec.setWidth_setWidth_of_le _ hn, BitVec.setWidth_eq, BitVec.signExtend]

/-- Two bytes side by side hold their little-endian value. -/
theorem toNat_append_bytes (hi low : Byte) : (hi ++ low).toNat = low.toNat + 2 ^ 8 * hi.toNat := by
  rw [BitVec.toNat_append, ← Nat.shiftLeft_add_eq_or_of_lt low.isLt, Nat.shiftLeft_eq]
  omega

end

/-! ### Loads and stores that RAM completes, or that no device owns -/

section
variable {i : Instr} {r rs1 : Reg} {imm : Word} {n : Width} {s : State} (hl : s.cfg.lsEnable = true)
include hl

/-- A load in RAM: the little-endian value of its bytes, extended, in x[rd] (R250, R262). -/
theorem load_wroteReg {ext : Word → Word} {v : Word} (access : RamAccess s (effAddr s rs1 imm) n)
    (hi : exec i s = load i r rs1 imm n ext s)
    (hv : ext (BitVec.ofNat 32 (byteSum s.mem (effAddr s rs1 imm).toNat n.bytes)) = v) :
    ∃ t, exec i s = .next t ∧ WroteReg s t r v (s.pc + 4) := by
  refine ⟨_, hi.trans (load_of_ok hl (memRead_of_ramAccess access s.mem s.io)), ?_⟩
  rw [afterRead_of_ramAccess access, hv]
  exact retire_wroteReg s r v

/-- A store in RAM: its low bytes written, nothing else but the pc changed. -/
theorem store_storedBytes (hm : s.mem.wf = true) (access : RamAccess s (effAddr s rs1 imm) n)
    (hi : exec i s = store i r rs1 imm n s) :
    ∃ t, exec i s = .next t ∧ StoredBytes s t (effAddr s rs1 imm).toNat n.bytes (s.x r) := by
  refine ⟨_, hi.trans (store_of_done hl (memWrite_of_ramAccess access s.mem s.io (s.x r))), ?_⟩
  rw [afterWrite_of_ramAccess access]
  exact ⟨fun _ => rfl, rfl, read_writeBytes_valueBytes hm _ _ _, rfl, rfl, rfl⟩

variable (unmapped : findDevice s.cfg.devices (effAddr s rs1 imm) n = none)
include unmapped

theorem load_unmapped_stops {ext : Word → Word} (hi : exec i s = load i r rs1 imm n ext s) :
    ∃ t, exec i s = .next t ∧ StoppedPrecisely s t (.busError .load (effAddr s rs1 imm) n.bytes) :=
  ⟨_, hi.trans (load_of_error hl (memRead_unmapped unmapped s.mem s.io)), raise_stoppedPrecisely s _⟩

theorem store_unmapped_stops (hi : exec i s = store i r rs1 imm n s) :
    ∃ t, exec i s = .next t ∧ StoppedPrecisely s t (.busError .store (effAddr s rs1 imm) n.bytes) :=
  ⟨_, hi.trans (store_of_failed hl (memWrite_unmapped unmapped s.mem s.io (s.x r))), raise_stoppedPrecisely s _⟩

end

/-- Settles O15: the value of one byte, extended from eight bits. -/
theorem lbLbuLoadOneByte : Obligations.LbLbuLoadOneByte := by
  intro rd rs1 imm s hl access
  refine ⟨load_wroteReg hl access rfl ?lb, load_wroteReg hl access rfl ?lbu⟩
  case lb => exact (congrArg _ (congrArg _ (byteSum_one _ _))).trans (sext_ofNat_toNat (by decide) _)
  case lbu => exact (zext_byteSum _ _ (n := 1) (by decide)).trans (congrArg _ (byteSum_one _ _))

/-- Settles O16: the value of two bytes, extended from sixteen bits. -/
theorem lhLhuLoadTwoBytes : Obligations.LhLhuLoadTwoBytes := by
  intro rd rs1 imm s hl access
  refine ⟨load_wroteReg hl access rfl ?lh, load_wroteReg hl access rfl ?lhu⟩
  case lh =>
    exact (congrArg _ (congrArg _ ((byteSum_two _ _).trans (toNat_append_bytes _ _).symm))).trans
      (sext_ofNat_toNat (by decide) _)
  case lhu => exact (zext_byteSum _ _ (n := 2) (by decide)).trans (congrArg _ (byteSum_two _ _))

/-- Settles O17: the value of four bytes is a whole word. -/
theorem lwLoadsFourBytes : Obligations.LwLoadsFourBytes := by
  intro rd rs1 imm s hl access
  exact load_wroteReg hl access rfl ((sext_full _).trans (congrArg _ (byteSum_four _ _)))

/-- Settles O18: each store is the family's shape at its width. -/
theorem storesWriteLowBytes : Obligations.StoresWriteLowBytes := by
  intro rs2 rs1 imm s hl hm
  exact ⟨fun access => store_storedBytes hl hm access rfl, fun access => store_storedBytes hl hm access rfl,
    fun access => store_storedBytes hl hm access rfl⟩

/-- Settles O20: each load and store is its family's shape at its width, and the bus finds no device. -/
theorem unmappedDataAccessStops : Obligations.UnmappedDataAccessStops := by
  intro r rs1 imm s hl
  refine ⟨fun unmapped => ⟨?lb, ?lbu, ?sb⟩, fun unmapped => ⟨?lh, ?lhu, ?sh⟩, fun unmapped => ⟨?lw, ?sw⟩⟩
  case lb | lbu | lh | lhu | lw => exact load_unmapped_stops hl unmapped rfl
  case sb | sh | sw => exact store_unmapped_stops hl unmapped rfl

/-- Settles O52: a SW that does not stop has stored its bytes at the next pc, and RAM answers the fetch there. -/
theorem storeSeenByNextFetch : Obligations.StoreSeenByNextFetch := by
  intro rs2 rs1 imm s t _ hm target access hexec running
  cases hl : s.cfg.lsEnable with
  | false =>
    cases (exec_of_lsDisabled hl rfl).symm.trans hexec
    cases running
  | true =>
    rw [← target] at access
    obtain ⟨t', hexec', -, hpc, stored, -, -, hcfg⟩ := 
      store_storedBytes (i := .sw rs2 rs1 imm) hl hm access rfl
    cases hexec'.symm.trans hexec
    have bytes (k : Nat) (hk : k < 4) : t.mem.read ((effAddr s rs1 imm).toNat + k) =
        BitVec.ofNat 8 ((s.x rs2).toNat / 2 ^ (8 * k)) := by
      simp [stored, hk, Width.bytes]
    refine ⟨hpc, ?_⟩
    rw [hcfg, hpc, ← target, memRead_of_ramAccess access, Width.bytes, byteSum_of_bytes bytes,
      Nat.mod_eq_of_lt (s.x rs2).isLt, BitVec.ofNat_toNat, BitVec.setWidth_eq]

end Sys2Proof.Machine
end

section
/-! Proofs about the registers, the snapshot and reset (ISA_SPEC, families 10_state and 70_reset_and_hazards). -/

namespace Sys2Proof.Machine

/-! ### Registers and the snapshot -/

/-- Settles O46: the write to x0 is the accessor's own case, the rest is how registers read back. -/
theorem registerWriteReadsBack : Obligations.RegisterWriteReadsBack := by
  refine ⟨State.setX_zero, fun s r q v hr => ?_⟩
  rw [State.x_setX]
  by_cases hq : q = r
  · rw [if_pos ⟨hq, hq ▸ hr⟩, if_pos hq]
  · rw [if_neg fun h => hq h.1, if_neg hq]

/-- The status code is 0 exactly while running: every stop's code is 1 or more (R283). -/
theorem Status.code_eq_zero_iff (st : Status) : st.code = 0 ↔ st = .running := by
  cases st with
  | running => exact iff_of_true rfl rfl
  | stopped why => cases why <;> exact iff_of_false (Nat.succ_ne_zero _) Status.noConfusion

/-- Settles O47: the snapshot is taken through the accessors, and each cause's code is its own. -/
theorem observationShowsState : Obligations.ObservationShowsState := by
  intro s
  refine ⟨observe_reg s, rfl, rfl, Status.code_eq_zero_iff s.status, fun _ h => ?_, fun _ h => ?_, fun _ h => ?_,
    fun _ _ _ h => ?_, fun _ h => ?_⟩ <;> rw [h] <;> rfl

/-! ### Reset -/

section
variable (c : Config) (b : Boot)

theorem powerOn_slot_zero : (powerOn c b).regs[0] = 0#32 := by simp [powerOn]

theorem powerOn_x (r : Reg) (h0 : r ≠ 0) (h2 : r ≠ 2) : (powerOn c b).x r = b.initRegs[r.toNat] := by
  have index_ne {q : Reg} (h : r ≠ q) : q.toNat ≠ r.toNat := fun e => h (BitVec.eq_of_toNat_eq e.symm)
  have ne0 : 0 ≠ r.toNat := index_ne h0
  have ne2 : 2 ≠ r.toNat := index_ne h2
  rw [State.x, if_neg h0]
  simp [powerOn, ne0, ne2]

end

/-- Settles O43: the image is written over RAM_FILL; the two register writes are to x0 and x2. -/
theorem powerOnStateValues : Obligations.PowerOnStateValues := by
  intro c b hfill
  have reads := Memory.read_writeBytes b.image hfill c.ramBase.toNat
  refine ⟨State.x_zero _, ?x2, powerOn_x c b, rfl, rfl, rfl, rfl, fun k hk => ?image, fun a ha => ?fill⟩
  case x2 => exact Vector.getElem_set_self _
  case image =>
    refine (reads _).trans ?_
    simp [hk]
  case fill => exact (reads a).trans (dif_neg (by omega))

/-- Settles O44: the image's cells lie in RAM because the image fits it, the other cells are RAM_FILL's. -/
theorem powerOnHasInvariant : Obligations.PowerOnHasInvariant := by
  intro c b hc hfill inside
  obtain ⟨-, -, fits, -⟩ := (configWf_iff _).mp hc
  refine ⟨hc, Memory.wf_writeBytes b.image hfill _, fun x hx => ?_, powerOn_slot_zero c b⟩
  rcases Memory.mem_writeBytes b.image hx with hx | ⟨low, high⟩
  · exact inside x hx
  · exact (inRam_iff _ _).mpr ⟨low, high.trans_le (Nat.add_le_add_left fits _)⟩

theorem reset_eq_powerOn : State.reset = powerOn Config.default (Boot.ofImage Config.default []) := by decide

/-- Settles O42: the reset state is a literal, and its 32 registers are read off it. -/
theorem resetStateValues : Obligations.ResetStateValues :=
  ⟨reset_eq_powerOn, rfl, rfl, by decide, rfl, rfl, rfl⟩

/-- Settles O41: the reset state is the power-on state of the default configuration, which is well formed. -/
theorem resetHasInvariant : Obligations.ResetHasInvariant := by
  have default_wf : configWf { Config.default with imageLen := 0 } = true := by decide
  rw [Obligations.ResetHasInvariant, reset_eq_powerOn]
  exact powerOnHasInvariant Config.default _ default_wf rfl (fun _ h => nomatch h)

end Sys2Proof.Machine
end

section
/-! Proofs about the cycle (ISA_SPEC, families 40_cycle_and_units and 60_exceptions): what a step runs, how it stops
and what every instruction leaves unchanged. -/

namespace Sys2Proof.Machine

/-! ### One step, case by case -/

/-- Everything a step with a next state can be, in the order of the tests (R130, R291). -/
inductive StepsTo (s : State) : State → Prop where
  /-- The pc is outside the image (R131). -/
  | leavesImage (hr : s.status = .running) (him : inImage s.cfg s.pc = false) :
      StepsTo s (s.raise (.pcOut s.pc))
  /-- The bus fails the fetch (R132). -/
  | fetchFails (f : BusFailure) (hr : s.status = .running) (him : inImage s.cfg s.pc = true)
      (hm : memRead s.cfg s.mem s.io s.pc .four = .error f) : StepsTo s (s.raise (stopOf .fetch f))
  /-- The fetched word has no recognised opcode (R133). -/
  | unrecognised (w : Word) (hw : FetchedWord s w)
      (hd : decodeWord s.cfg.strictDecode w = .error .unrecognisedOpcode) :
      StepsTo s (s.afterFetch.raise (.decodeError w))
  /-- The fetched word selects no row of the dispatch map (R113). -/
  | noRow (w : Word) (hw : FetchedWord s w) (hd : decodeWord s.cfg.strictDecode w = .error .noExecutePath) :
      StepsTo s (s.afterFetch.raise (.dispatchError w))
  /-- The instruction of the fetched word is executed (R134). -/
  | executes (w : Word) (i : Instr) (t : State) (hw : FetchedWord s w)
      (hd : decodeWord s.cfg.strictDecode w = .ok i) (hx : exec i s.afterFetch = .next t) : StepsTo s t

theorem stepsTo_of_step {s t : State} (h : step s = .next t) : StepsTo s t := by
  cases hr : s.status with
  | stopped why =>
    rw [step, hr] at h
    cases h
  | running =>
    rw [step_running hr] at h
    rcases cycle_cases s with ⟨him, hc⟩ | ⟨him, ⟨f, hm, hc⟩ | ⟨w, hm, ⟨hd, hc⟩ | ⟨hd, hc⟩ | ⟨i, hd, hc⟩⟩⟩
    · cases hc.symm.trans h
      exact .leavesImage hr him
    · cases hc.symm.trans h
      exact .fetchFails f hr him hm
    · cases hc.symm.trans h
      exact .unrecognised w ⟨hr, him, hm⟩ hd
    · cases hc.symm.trans h
      exact .noRow w ⟨hr, him, hm⟩ hd
    · exact .executes w i t ⟨hr, him, hm⟩ hd (hc.symm.trans h)

theorem effect_of_exec {i : Instr} {s t : State} (h : exec i s = .next t) : Effect i s (.next t) :=
  h ▸ exec_effect i s

/-! ### The invariant -/

section
variable {i : Instr} {s t : State} (h : exec i s = .next t)
include h

theorem exec_keeps_cfg : t.cfg = s.cfg := by
  cases effect_of_exec h <;> simp

/-- No instruction writes the slot of x0. -/
theorem exec_keeps_slot_zero : t.regs[0] = s.regs[0] := by
  cases effect_of_exec h <;> simp

/-- The memory an instruction leaves is the old one or what a bus write left. -/
theorem exec_mem_cases : t.mem = s.mem ∨
    ∃ addr n v, t.mem = (memWrite s.cfg s.mem s.io addr n v).memory := by
  cases effect_of_exec h with
  | stores addr n v m _ _ _ _ _ hw => exact .inr ⟨addr, n, v, by rw [hw]; rfl⟩
  | storeFails addr n v f m _ _ _ hw => exact .inr ⟨addr, n, v, by rw [hw]; rfl⟩
  | retires | loads | links | branches | loadFails | noPath => exact .inl (by simp)

theorem exec_keeps_inv (hs : s.Inv) : t.Inv := by
  obtain ⟨hc, hwf, hin, hzero⟩ := hs
  rw [State.Inv, exec_keeps_cfg h, exec_keeps_slot_zero h]
  rcases exec_mem_cases h with hm | ⟨addr, n, v, hm⟩
  · rw [hm]
    exact ⟨hc, hwf, hin, hzero⟩
  · rw [hm]
    exact ⟨hc, memWrite_keeps_wf hwf s.io addr n v, memWrite_keeps_inRam hin s.io addr n v, hzero⟩

end

/-- Settles O40: a stop and a completed fetch write neither registers, memory nor parameters, and the execute phase
keeps the invariant. -/
theorem stepKeepsInvariant : Obligations.StepKeepsInvariant := by
  intro s t hs h
  cases stepsTo_of_step h with
  | leavesImage | fetchFails | unrecognised | noRow => exact hs
  | executes w i _ hw hd hx => exact exec_keeps_inv hx hs

/-- Settles O38: every effect of the execute phase keeps the parameters, and so do the fetch and a stop. -/
theorem parametersNeverChange : Obligations.ParametersNeverChange := by
  intro s t h
  cases stepsTo_of_step h with
  | leavesImage | fetchFails | unrecognised | noRow => rfl
  | executes w i _ hw hd hx => exact exec_keeps_cfg (s := s.afterFetch) hx

/-! ### What an instruction leaves unchanged -/

/-- Settles O35: only the effects with a destination register write one, and that one. -/
theorem onlyDestinationRegisterChanges : Obligations.OnlyDestinationRegisterChanges := by
  intro i s t h
  refine ⟨fun r hr => ?_, State.x_zero t⟩
  have other {rd : Reg} (hd : destOf i = some rd) : r ≠ rd := fun e => hr (e ▸ hd)
  cases effect_of_exec h with
  | retires rd v hd => simp [other hd]
  | loads addr n w rd v hd => simp [other hd]
  | links rd target hd => simp [other hd]
  | branches | stores | storeFails | loadFails | noPath => rfl

/-- Settles O36: the effects of a straight-line instruction advance the pc or raise a stop. -/
theorem straightLineAdvancesByFour : Obligations.StraightLineAdvancesByFour := by
  intro i s t hc h
  rw [← linkAddr_eq_ofNat]
  cases effect_of_exec h with
  | retires rd v => exact .inl (State.retire_pc s rd v)
  | loads addr n w rd v => exact .inl (State.retire_pc _ rd v)
  | stores => exact .inl rfl
  | links _ _ _ hc' => cases hc.symm.trans hc'
  | branches _ _ hc' => cases hc.symm.trans hc'
  | storeFails | loadFails | noPath => exact .inr ⟨rfl, _, rfl⟩

section
variable {i : Instr} {s t : State} (h : exec i s = .next t)
include h

theorem exec_keeps_mem (hs : storesBytes i = false ∨ s.cfg.lsEnable = false) : t.mem = s.mem := by
  have not_store (hst : storesBytes i = true) (hl : s.cfg.lsEnable = true) : False := by simp [hst, hl] at hs
  cases effect_of_exec h with
  | stores _ _ _ _ _ _ hst _ hl => exact (not_store hst hl).elim
  | storeFails _ _ _ _ _ _ hst hl => exact (not_store hst hl).elim
  | retires | loads | links | branches | loadFails | noPath => simp

theorem exec_keeps_io (ha : accessesData i = false ∨ s.cfg.lsEnable = false) : t.io = s.io := by
  have not_access (hac : accessesData i = true) (hl : s.cfg.lsEnable = true) : False := by simp [hac, hl] at ha
  cases effect_of_exec h with
  | loads _ _ _ _ _ _ _ _ hac hl => exact (not_access hac hl).elim
  | stores _ _ _ _ _ _ _ hac hl => exact (not_access hac hl).elim
  | retires | links | branches | storeFails | loadFails | noPath => simp

/-- Where RAM is the only kind of device, no other device sees an access. -/
theorem exec_keeps_io_of_onlyRam (ho : onlyRam s.cfg = true) : t.io = s.io := by
  cases effect_of_exec h with
  | loads => simp [ioAfterRead_of_not_peripheral (kind_of_onlyRam ho)]
  | stores => simp [ioAfterWrite_of_not_peripheral (kind_of_onlyRam ho)]
  | retires | links | branches | storeFails | loadFails | noPath => simp

end

/-- Settles O37: of the effects only a store's writes memory, only a completed access reaches a device, and both need
LS_ENABLE. -/
theorem memoryChangesByStoresAlone : Obligations.MemoryChangesByStoresAlone := by
  refine ⟨fun _ _ _ h => exec_keeps_mem h, fun s t h hl => ?mem, fun _ _ _ h => exec_keeps_io h,
    fun s t h ho => ?io⟩
  case mem =>
    cases stepsTo_of_step h with
    | leavesImage | fetchFails | unrecognised | noRow => rfl
    | executes w i _ hw hd hx => exact exec_keeps_mem (s := s.afterFetch) hx (.inr hl)
  case io =>
    have fetched : s.afterFetch = s := afterFetch_of_not_peripheral (kind_of_onlyRam ho)
    cases stepsTo_of_step h with
    | leavesImage | fetchFails => rfl
    | unrecognised | noRow => rw [fetched]; rfl
    | executes w i _ hw hd hx =>
      rw [fetched] at hx
      exact exec_keeps_io_of_onlyRam hx ho

/-! ### Even addresses -/

/-- A signed even value is an even value. -/
theorem toNat_even_of_toInt {v : Word} (h : v.toInt % 2 = 0) : v.toNat % 2 = 0 := by
  have := BitVec.toInt_eq_toNat_cond v
  split at this <;> omega

theorem add_even {a b : Word} (ha : a.toNat % 2 = 0) (hb : b.toNat % 2 = 0) : (a + b).toNat % 2 = 0 := by
  rw [BitVec.toNat_add]
  omega

theorem jalrTarget_even (s : State) (rs1 : Reg) (imm : Word) : (jalrTarget s rs1 imm).toNat % 2 = 0 := by
  rw [jalrTarget_eq_ofNat, BitVec.toNat_ofNat]
  omega

theorem branch_even {cmp : Cmp} {rs1 rs2 : Reg} {imm : Word} {s t : State} (hpc : s.pc.toNat % 2 = 0)
    (fits : immFitsB imm = true) (h : branch cmp rs1 rs2 imm s = .next t) : t.pc.toNat % 2 = 0 := by
  obtain ⟨-, -, even⟩ := of_decide_eq_true fits
  obtain rfl := Host.Outcome.next.inj h
  split
  · exact add_even hpc (toNat_even_of_toInt even)
  · exact add_even hpc (by decide)

/-- A well-formed instruction keeps an even pc even. -/
theorem exec_even {strict : Bool} {i : Instr} {s t : State} (hwf : i.wf strict = true)
    (hpc : s.pc.toNat % 2 = 0) (h : exec i s = .next t) : t.pc.toNat % 2 = 0 := by
  cases hc : transfersControl i with
  | false =>
    rcases straightLineAdvancesByFour i s t hc h with hnext | ⟨hsame, -⟩
    · rw [hnext, ← linkAddr_eq_ofNat]
      exact add_even hpc (by decide)
    · rwa [hsame]
  | true =>
    cases i
    case jal rd imm =>
      obtain ⟨-, -, even⟩ := of_decide_eq_true hwf
      obtain rfl := Host.Outcome.next.inj h
      exact add_even hpc (toNat_even_of_toInt even)
    case jalr rd rs1 imm f =>
      obtain rfl := Host.Outcome.next.inj h
      exact jalrTarget_even s rs1 imm
    case beq | bne | blt | bge | bltu | bgeu => exact branch_even hpc hwf h
    all_goals cases hc

/-- Settles O39: a decoded instruction is well formed, so its offset is even. -/
theorem evenPcStaysEven : Obligations.EvenPcStaysEven := by
  intro s t hpc h
  cases stepsTo_of_step h with
  | leavesImage | fetchFails | unrecognised | noRow => exact hpc
  | executes w i _ hw hd hx =>
    obtain ⟨hwf, -⟩ := decodeWord_names hd
    exact exec_even (s := s.afterFetch) hwf hpc hx

end Sys2Proof.Machine
end

section
/-! Proofs about how a step stops (ISA_SPEC, families 40_cycle_and_units and 60_exceptions): which instruction a
step runs, and for each stop the one reason it can have. -/

namespace Sys2Proof.Machine

/-! ### Which instruction a step runs -/

/-- In a well-formed configuration RAM alone can answer the fetch: the pc is in the image, the image in RAM, and no
other device owns an address of RAM (R56, R313). -/
theorem fetch_kind_of_configWf {s : State} (hc : configWf s.cfg = true) (him : inImage s.cfg s.pc = true)
    (d : Device) (hd : findDevice s.cfg.devices s.pc .four = some d) : d.kind = .ram := by
  obtain ⟨-, -, fits, disjoint, registered, -⟩ := (configWf_iff _).mp hc
  obtain ⟨low, high⟩ : s.cfg.ramBase.toNat ≤ s.pc.toNat ∧
      s.pc.toNat < s.cfg.ramBase.toNat + s.cfg.imageLen := of_decide_eq_true him
  obtain ⟨member, contains⟩ := findDevice_some hd
  obtain ⟨first, last⟩ := (deviceContains_iff d s.pc .four).mp contains
  have four : Width.bytes .four = 4 := rfl
  have owns : d.start.toNat ≤ s.pc.toNat ∧ s.pc.toNat ≤ d.last.toNat := by omega
  have ramLast := ramDevice_last hc
  have ramOwns : (ramDevice s.cfg).start.toNat ≤ s.pc.toNat ∧ s.pc.toNat ≤ (ramDevice s.cfg).last.toNat :=
    ⟨low, by omega⟩
  rw [eq_of_shared_address disjoint member registered owns ramOwns]
  rfl

theorem afterFetch_of_configWf {s : State} (hc : configWf s.cfg = true) (him : inImage s.cfg s.pc = true) :
    s.afterFetch = s :=
  afterFetch_of_not_peripheral (fetch_kind_of_configWf hc him)

/-- Settles O24: the cycle's last arm; RAM's read has no effect on the state. -/
theorem stepRunsDecodedInstruction : Obligations.StepRunsDecodedInstruction := by
  intro s w i hw hd
  obtain ⟨-, him, -⟩ := id hw
  exact ⟨by rw [step_fetched hw, hd], afterFetch_of_not_peripheral, fun hc => afterFetch_of_configWf hc him⟩

/-- Settles O25: RAM's read of the four bytes is the word of the instruction, which decodes to it. -/
theorem stepRunsEncodedBytes : Obligations.StepRunsEncodedBytes := by
  intro s i hr him access hwf bytes
  have word : memRead s.cfg s.mem s.io s.pc .four = .ok (encode i) := by
    rw [memRead_of_ramAccess access, Width.bytes, byteSum_of_bytes bytes, Nat.mod_eq_of_lt (encode i).isLt,
      BitVec.ofNat_toNat, BitVec.setWidth_eq]
  obtain ⟨runs, same, -⟩ := stepRunsDecodedInstruction s (encode i) i ⟨hr, him, word⟩ (decodeWord_encode hwf)
  rw [runs, same (kind_of_ramAccess access)]

/-! ### A running core has a next state -/

theorem cycle_next (s : State) : ∃ t, cycle s = .next t := by
  rcases cycle_cases s with ⟨-, hc⟩ | ⟨-, ⟨f, -, hc⟩ | ⟨w, -, ⟨-, hc⟩ | ⟨-, hc⟩ | ⟨i, -, hc⟩⟩⟩
  · exact ⟨_, hc⟩
  · exact ⟨_, hc⟩
  · exact ⟨_, hc⟩
  · exact ⟨_, hc⟩
  · rw [hc]
    exact exec_next i s.afterFetch

theorem step_stopped {s : State} {why : Stop} (h : s.status = .stopped why) : step s = .fault (.halted why) := by
  rw [step, h]

theorem step_next_of_running {s : State} (h : s.status = .running) : ∃ t, step s = .next t := by
  rw [step_running h]
  exact cycle_next s

/-- Settles O33: the cycle answers a next state in each of its arms, and a stopped core a fault. -/
theorem runningCoreAlwaysSteps : Obligations.RunningCoreAlwaysSteps := by
  refine ⟨fun _ => step_next_of_running, exec_next, fun s r refused => ?_⟩
  cases hr : s.status with
  | running =>
    obtain ⟨t, next⟩ := step_next_of_running hr
    cases next.symm.trans refused
  | stopped why => cases (step_stopped hr).symm.trans refused

/-- Settles O26: a stopped core faults with its own cause, a running one has a next state. -/
theorem faultExactlyFromStoppedState : Obligations.FaultExactlyFromStoppedState := by
  intro s r
  constructor
  · intro fault
    cases hr : s.status with
    | running =>
      obtain ⟨t, next⟩ := step_next_of_running hr
      cases next.symm.trans fault
    | stopped why =>
      cases (step_stopped hr).symm.trans fault
      exact ⟨why, rfl, rfl⟩
  · rintro ⟨why, stopped, rfl⟩
    exact step_stopped stopped

/-! ### How the bus fails -/

/-- Each failure of a read has one reason: no device (R60), RAM's check in an ill-formed configuration (R65), or a
peripheral (R61). -/
theorem memRead_error_cases {c : Config} {m : Memory} {io : List DeviceAccess} {addr : Word} {n : Width}
    {f : BusFailure} (h : memRead c m io addr n = .error f) :
    (f = .noDeviceMapped addr n.bytes ∧ findDevice c.devices addr n = none) ∨
    (∃ a, f = .outOfBounds a ∧ configWf c = false) ∨
    (∃ a, f = .peripheralFailed a ∧ onlyRam c = false) := by
  rcases memRead_cases c m io addr n with
    ⟨hd, hm⟩ | ⟨d, -, -, ⟨v, -, hm⟩ | ⟨a, -, hm⟩⟩ | ⟨d, id, hd, hk, ⟨v, -, hm⟩ | ⟨a, -, hm⟩⟩ <;>
    cases hm.symm.trans h
  · exact .inl ⟨rfl, hd⟩
  · exact .inr (.inl ⟨a, rfl, Bool.eq_false_of_not_eq_true fun hc => memRead_ne_outOfBounds hc hm⟩)
  · refine .inr (.inr ⟨a, rfl, Bool.eq_false_of_not_eq_true fun ho => ?_⟩)
    cases hk.symm.trans (kind_of_onlyRam ho d hd)

/-- Each failure of a write has one reason, and only RAM's own check can leave memory changed (R64, R65). -/
theorem memWrite_failed_cases {c : Config} {m m' : Memory} {io : List DeviceAccess} {addr : Word} {n : Width}
    {v : Word} {f : BusFailure} (h : memWrite c m io addr n v = .failed f m') :
    (f = .noDeviceMapped addr n.bytes ∧ m' = m) ∨
    (∃ a, f = .outOfBounds a ∧ configWf c = false) ∨
    (∃ a, f = .peripheralFailed a ∧ onlyRam c = false ∧ m' = m) := by
  rcases memWrite_cases c m io addr n v with
    ⟨-, hm⟩ | ⟨d, -, -, ⟨m₁, -, hm⟩ | ⟨a, m₁, -, hm⟩⟩ | ⟨d, id, hd, hk, ⟨-, hm⟩ | ⟨a, -, hm⟩⟩ <;>
    cases hm.symm.trans h
  · exact .inl ⟨rfl, rfl⟩
  · exact .inr (.inl ⟨a, rfl, Bool.eq_false_of_not_eq_true fun hc => memWrite_ne_outOfBounds hc hm⟩)
  · refine .inr (.inr ⟨a, rfl, Bool.eq_false_of_not_eq_true fun ho => ?_, rfl⟩)
    cases hk.symm.trans (kind_of_onlyRam ho d hd)

/-! ### How an instruction stops -/

/-- The opcodes whose instructions have no execute path under LS_ENABLE = `ls`: their effect is the dispatch error
(R251, R272, R274). -/
def hasNoPath (ls : Bool) : Opcode → Bool
  | .system | .miscMem => true
  | .load | .store => !ls
  | .op | .opImm | .jalr | .branch | .lui | .auipc | .jal => false

theorem exec_of_hasNoPath {i : Instr} {s : State} (h : hasNoPath s.cfg.lsEnable (Laws.opcodeOf i) = true) :
    exec i s = .next (s.raise (.dispatchError (encode i))) := by
  cases i
  case ecall => exact exec_ecall s
  case ebreak => exact exec_ebreak s
  case fence => rfl
  case lb | lh | lw | lbu | lhu | sb | sh | sw =>
    exact exec_of_lsDisabled (by simpa [hasNoPath, Laws.opcodeOf] using h) rfl
  all_goals cases h

/-- How the execute phase of an instruction, entered running, can end stopped. -/
inductive ExecStops (i : Instr) (s : State) : State → Stop → Prop where
  /-- The instruction has no execute path in this configuration (R113). -/
  | noPath (hp : hasNoPath s.cfg.lsEnable (Laws.opcodeOf i) = true) :
      ExecStops i s (s.raise (.dispatchError (encode i))) (.dispatchError (encode i))
  /-- The bus fails its read (R261). -/
  | loadFails (addr : Word) (n : Width) (f : BusFailure) (ho : Laws.opcodeOf i = .load)
      (hl : s.cfg.lsEnable = true) (hr : memRead s.cfg s.mem s.io addr n = .error f) :
      ExecStops i s (s.raise (stopOf .load f)) (stopOf .load f)
  /-- The bus fails its write (R261). -/
  | storeFails (addr : Word) (n : Width) (v : Word) (f : BusFailure) (m : Memory) (ho : Laws.opcodeOf i = .store)
      (hl : s.cfg.lsEnable = true) (hw : memWrite s.cfg s.mem s.io addr n v = .failed f m) :
      ExecStops i s ((s.withMem m).raise (stopOf .store f)) (stopOf .store f)

section
variable {i : Instr} {s t : State} {why : Stop} (hr : s.status = .running) (ht : t.status = .stopped why)
include hr ht

theorem not_stopped_of_status_kept (h : t.status = s.status) : False := by
  cases ht.symm.trans (h.trans hr)

theorem load_stops {rd rs1 : Reg} {imm : Word} {n : Width} {ext : Word → Word}
    (ho : Laws.opcodeOf i = .load) (h : load i rd rs1 imm n ext s = .next t) : ExecStops i s t why := by
  unfold load at h
  split at h
  next hl =>
    split at h
    next v hm =>
      cases h
      exact (not_stopped_of_status_kept hr ht (State.retire_status ..)).elim
    next f hm =>
      cases h
      cases ht
      exact .loadFails _ n f ho hl hm
  next hl =>
    cases h
    cases ht
    exact .noPath (by simpa [ho, hasNoPath] using hl)

theorem store_stops {rs2 rs1 : Reg} {imm : Word} {n : Width}
    (ho : Laws.opcodeOf i = .store) (h : store i rs2 rs1 imm n s = .next t) : ExecStops i s t why := by
  unfold store at h
  split at h
  next hl =>
    split at h
    next m hw =>
      cases h
      exact (not_stopped_of_status_kept hr ht rfl).elim
    next f m hw =>
      cases h
      cases ht
      exact .storeFails _ n _ f m ho hl hw
  next hl =>
    cases h
    cases ht
    exact .noPath (by simpa [ho, hasNoPath] using hl)

theorem branch_not_stops {cmp : Cmp} {rs1 rs2 : Reg} {imm : Word} (h : branch cmp rs1 rs2 imm s = .next t) :
    False := by
  obtain rfl := Host.Outcome.next.inj h
  split at ht <;> exact not_stopped_of_status_kept hr ht rfl

/-- Only a dispatch error, a failed load and a failed store stop an instruction. -/
theorem execStops_of_exec (h : exec i s = .next t) : ExecStops i s t why := by
  cases i
  case lb | lh | lw | lbu | lhu => exact load_stops hr ht rfl h
  case sb | sh | sw => exact store_stops hr ht rfl h
  case beq | bne | blt | bge | bltu | bgeu => exact (branch_not_stops hr ht h).elim
  case ecall | ebreak | fence =>
    rw [exec_of_hasNoPath rfl] at h
    cases h
    cases ht
    exact .noPath rfl
  case jal | jalr =>
    obtain rfl := Host.Outcome.next.inj h
    exact (not_stopped_of_status_kept hr ht (State.setX_status ..)).elim
  all_goals
    obtain rfl := Host.Outcome.next.inj h
    exact (not_stopped_of_status_kept hr ht (State.retire_status ..)).elim

end

/-! ### The state a stop leaves -/

/-- A step that stops raises the stop in the state before it or in the state once the fetch is made; memory is other
than before only where RAM's own check failed, in an ill-formed configuration. -/
theorem step_stops_state {s t : State} {why : Stop} (h : step s = .next t) (ht : t.status = .stopped why) :
    ∃ u m, t = (u.withMem m).raise why ∧ (u = s ∨ u = s.afterFetch) ∧ (configWf s.cfg = true → u = s) ∧
      (m = s.mem ∨ (∃ a, why = .deviceFault a) ∧ configWf s.cfg = false) := by
  cases stepsTo_of_step h with
  | leavesImage | fetchFails =>
    cases ht
    exact ⟨s, s.mem, rfl, .inl rfl, fun _ => rfl, .inl rfl⟩
  | unrecognised w hw | noRow w hw =>
    obtain ⟨-, him, -⟩ := hw
    cases ht
    exact ⟨s.afterFetch, s.mem, rfl, .inr rfl, fun hc => afterFetch_of_configWf hc him, .inl rfl⟩
  | executes w i _ hw hd hx =>
    obtain ⟨hr, him, -⟩ := hw
    have same (hc : configWf s.cfg = true) : s.afterFetch = s := afterFetch_of_configWf hc him
    cases execStops_of_exec (s := s.afterFetch) hr ht hx with
    | noPath | loadFails => exact ⟨s.afterFetch, s.mem, rfl, .inr rfl, same, .inl rfl⟩
    | storeFails addr n v f m _ _ hw =>
      refine ⟨s.afterFetch, m, rfl, .inr rfl, same, ?_⟩
      rcases memWrite_failed_cases hw with ⟨-, kept⟩ | ⟨a, rfl, ill⟩ | ⟨a, -, -, kept⟩
      · exact .inl kept
      · exact .inr ⟨⟨a, rfl⟩, ill⟩
      · exact .inl kept

/-- Settles O31: `raise` writes the status alone, the fetch the devices alone, and memory is written only by a RAM
whose own check then fails. -/
theorem stopsArePrecise : Obligations.StopsArePrecise := by
  intro s t why _ h ht
  obtain ⟨u, m, rfl, hu, wellFormed, hm⟩ := step_stops_state h ht
  have memory (hwhy : ∀ a, why ≠ .deviceFault a) : m = s.mem := by
    rcases hm with kept | ⟨⟨a, fault⟩, -⟩
    · exact kept
    · exact absurd fault (hwhy a)
  have precise (hc : configWf s.cfg = true) : StoppedPrecisely s ((u.withMem m).raise why) why := by
    rcases hm with rfl | ⟨-, ill⟩
    · rw [wellFormed hc]
      exact raise_stoppedPrecisely s why
    · cases hc.symm.trans ill
  rcases hu with rfl | rfl
  · exact ⟨fun _ => rfl, rfl, rfl, memory, .inl rfl, precise⟩
  · exact ⟨fun _ => rfl, rfl, rfl, memory, .inr rfl, precise⟩

/-! ### The reason of a stop -/

/-- The opcode of an instruction stands in bits 6:0 of its word. -/
theorem opcode_encode (i : Instr) : field (encode i) 0 7 = (Laws.opcodeOf i).bits := by
  cases i
  case srli | srai | add | sub | sll | slt | sltu | xor | srl | sra | or | and => exact opcode_encR ..
  case beq | bne | blt | bge | bltu | bgeu => exact opcode_encB ..
  case sb | sh | sw => exact opcode_encS ..
  case lui | auipc => exact opcode_encU ..
  case jal => exact opcode_encJ ..
  all_goals exact opcode_encI ..

/-- What each stop cause says of the state it was raised from (R284 to R288, R291). -/
def Explains (s : State) : Stop → Prop
  | .pcOut p => p = s.pc ∧ inImage s.cfg s.pc = false
  | .decodeError w => FetchedWord s w ∧ field w 0 7 ∉ recognisedOpcodes
  | .dispatchError w => FetchedWord s w ∧ field w 0 7 ∈ recognisedOpcodes
  | .busError .fetch a n =>
    inImage s.cfg s.pc = true ∧ a = s.pc ∧ n = 4 ∧ findDevice s.cfg.devices s.pc .four = none
  | .busError .load _ _ => s.cfg.lsEnable = true ∧ ∃ w, FetchedWord s w ∧ field w 0 7 = 0b0000011
  | .busError .store _ _ => s.cfg.lsEnable = true ∧ ∃ w, FetchedWord s w ∧ field w 0 7 = 0b0100011
  | .deviceFault _ => configWf s.cfg = false ∨ onlyRam s.cfg = false

theorem recognised_of_decodeWord {strict : Bool} {w : Word}
    (h : decodeWord strict w ≠ .error .unrecognisedOpcode) : field w 0 7 ∈ recognisedOpcodes :=
  not_not.mp fun hop => h ((decodeWord_unrecognised_iff strict w).mpr hop)

theorem step_stop_explained {s t : State} {why : Stop} (h : step s = .next t) (ht : t.status = .stopped why) :
    Explains s why := by
  cases stepsTo_of_step h with
  | leavesImage hr him =>
    cases ht
    exact ⟨rfl, him⟩
  | fetchFails f hr him hm =>
    cases ht
    rcases memRead_error_cases hm with ⟨rfl, hd⟩ | ⟨a, rfl, ill⟩ | ⟨a, rfl, peripheral⟩
    · exact ⟨him, rfl, rfl, hd⟩
    · exact .inl ill
    · exact .inr peripheral
  | unrecognised w hw hd =>
    cases ht
    exact ⟨hw, (decodeWord_unrecognised_iff _ w).mp hd⟩
  | noRow w hw hd =>
    cases ht
    exact ⟨hw, recognised_of_decodeWord (by rw [hd]; simp)⟩
  | executes w i _ hw hd hx =>
    obtain ⟨-, word⟩ := decodeWord_names hd
    have opcode : field w 0 7 = (Laws.opcodeOf i).bits := word ▸ opcode_encode i
    obtain ⟨hr, -, -⟩ := id hw
    cases execStops_of_exec (s := s.afterFetch) hr ht hx with
    | noPath =>
      rw [word]
      exact ⟨hw, recognised_of_decodeWord (by rw [hd]; simp)⟩
    | loadFails addr n f ho hl hm =>
      rw [ho] at opcode
      rcases memRead_error_cases hm with ⟨rfl, -⟩ | ⟨a, rfl, ill⟩ | ⟨a, rfl, peripheral⟩
      · exact ⟨hl, w, hw, opcode⟩
      · exact .inl ill
      · exact .inr peripheral
    | storeFails addr n v f m ho hl hm =>
      rw [ho] at opcode
      rcases memWrite_failed_cases hm with ⟨rfl, -⟩ | ⟨a, rfl, ill⟩ | ⟨a, rfl, peripheral, -⟩
      · exact ⟨hl, w, hw, opcode⟩
      · exact .inl ill
      · exact .inr peripheral

/-- Settles O32: each clause is what its cause says of the state. -/
theorem stopCauseTellsWhichTestFailed : Obligations.StopCauseTellsWhichTestFailed := by
  intro s t _ h
  exact ⟨fun _ => step_stop_explained h, fun _ => step_stop_explained h, fun _ => step_stop_explained h,
    fun _ _ => step_stop_explained h, fun _ _ => step_stop_explained h, fun _ _ => step_stop_explained h,
    fun _ => step_stop_explained h⟩

/-- Settles O27: outside the image the first test stops the step; a PcOut says that the pc was outside. -/
theorem pcOutExactlyOutsideImage : Obligations.PcOutExactlyOutsideImage := by
  intro s hr
  constructor
  · intro outside
    have him : inImage s.cfg s.pc = false := decide_eq_false outside
    exact ⟨_, by rw [step_running hr, cycle, him]; rfl, raise_stoppedPrecisely s _⟩
  · intro inside t p h ht
    have him : inImage s.cfg s.pc = true := decide_eq_true inside
    obtain ⟨-, outside⟩ : Explains s (.pcOut p) := step_stop_explained h ht
    cases him.symm.trans outside

/-- Settles O28: the bus finds no device for the fetch. -/
theorem unmappedFetchStops : Obligations.UnmappedFetchStops := by
  intro s hr him unmapped
  exact ⟨_, step_of_fetch_error hr him (memRead_unmapped unmapped s.mem s.io), raise_stoppedPrecisely s _⟩

end Sys2Proof.Machine
end

section
/-! Proofs about the words with no execute path (ISA_SPEC, families 30_encoding and 60_exceptions): the list of R113,
(a) to (g), is what dispatch rejects and what the instructions themselves stop at. -/

namespace Sys2Proof

/-! ### What dispatch rejects -/

theorem funct3_cases (f : BitVec 3) : f = 0b000 ∨ f = 0b001 ∨ f = 0b010 ∨ f = 0b011 ∨ f = 0b100 ∨ f = 0b101 ∨
    f = 0b110 ∨ f = 0b111 := by decide +revert

section
variable {strict : Bool} {d : Decoded}

/-- R113 (a), and under STRICT_DECODE the SLLI words of (g). -/
theorem dispatchOpImm_eq_none_iff : dispatchOpImm strict d = none ↔
    (d.funct3 = 0b101 ∧ d.funct7 ≠ 0b0000000 ∧ d.funct7 ≠ 0b0100000) ∨
    (strict = true ∧ d.funct3 = 0b001 ∧ d.funct7 ≠ 0b0000000) := by
  rcases funct3_cases d.funct3 with h | h | h | h | h | h | h | h <;>
    simp [dispatchOpImm, h, functFits_iff, ite_eq_iff]

/-- R113 (b), and under STRICT_DECODE the OP words of (g). -/
theorem dispatchOp_eq_none_iff : dispatchOp strict d = none ↔
    ((d.funct3 = 0b000 ∨ d.funct3 = 0b101) ∧ d.funct7 ≠ 0b0000000 ∧ d.funct7 ≠ 0b0100000) ∨
    (strict = true ∧ d.funct3 ≠ 0b000 ∧ d.funct3 ≠ 0b101 ∧ d.funct7 ≠ 0b0000000) := by
  rcases funct3_cases d.funct3 with h | h | h | h | h | h | h | h <;>
    simp [dispatchOp, h, functFits_iff, ite_eq_iff]

/-- R113 (c). -/
theorem dispatchBranch_eq_none_iff : dispatchBranch d = none ↔ d.funct3 = 0b010 ∨ d.funct3 = 0b011 := by
  rcases funct3_cases d.funct3 with h | h | h | h | h | h | h | h <;> simp [dispatchBranch, h]

/-- The LOAD words that select no row, with LS_ENABLE true (R113, R260). -/
theorem dispatchLoad_eq_none_iff :
    dispatchLoad d = none ↔ d.funct3 = 0b011 ∨ d.funct3 = 0b110 ∨ d.funct3 = 0b111 := by
  rcases funct3_cases d.funct3 with h | h | h | h | h | h | h | h <;> simp [dispatchLoad, h]

/-- The STORE words that select no row, with LS_ENABLE true (R113, R260). -/
theorem dispatchStore_eq_none_iff : dispatchStore d = none ↔
    d.funct3 = 0b011 ∨ d.funct3 = 0b100 ∨ d.funct3 = 0b101 ∨ d.funct3 = 0b110 ∨ d.funct3 = 0b111 := by
  rcases funct3_cases d.funct3 with h | h | h | h | h | h | h | h <;> simp [dispatchStore, h]

end

namespace Machine

section
variable {ls strict : Bool} {w : Word}

/-- R113: a word with a recognised opcode is in the list exactly where dispatch selects no row for it, or every row of
its opcode stops by its own effect. -/
theorem noPathWord_iff {o : Opcode} (hop : field w 0 7 = o.bits) : noPathWord ls strict w ↔
    dispatch strict (decodedOf o w) = none ∨ hasNoPath ls o = true := by
  cases o
  case op =>
    have row : dispatch strict (decodedOf .op w) = dispatchOp strict (decodedOf .op w) := rfl
    rw [row, dispatchOp_eq_none_iff]
    simp [noPathWord, hop, Opcode.bits, hasNoPath, decodedOf]
  case opImm =>
    have row : dispatch strict (decodedOf .opImm w) = dispatchOpImm strict (decodedOf .opImm w) := rfl
    rw [row, dispatchOpImm_eq_none_iff]
    simp [noPathWord, hop, Opcode.bits, hasNoPath, decodedOf]
  case branch =>
    have row : dispatch strict (decodedOf .branch w) = dispatchBranch (decodedOf .branch w) := rfl
    rw [row, dispatchBranch_eq_none_iff]
    simp [noPathWord, hop, Opcode.bits, hasNoPath, decodedOf]
  case load =>
    have row : dispatch strict (decodedOf .load w) = dispatchLoad (decodedOf .load w) := rfl
    rw [row, dispatchLoad_eq_none_iff]
    cases ls <;> simp [noPathWord, hop, Opcode.bits, hasNoPath, decodedOf]
  case store =>
    have row : dispatch strict (decodedOf .store w) = dispatchStore (decodedOf .store w) := rfl
    rw [row, dispatchStore_eq_none_iff]
    cases ls <;> simp [noPathWord, hop, Opcode.bits, hasNoPath, decodedOf]
  case jalr =>
    have row : dispatch strict (decodedOf .jalr w) =
        if functFits strict (field w 12 3) then
          some (.jalr (field w 7 5) (field w 15 5) (immI w) (field w 12 3)) else none := rfl
    simp [noPathWord, hop, Opcode.bits, hasNoPath, row, functFits_iff]
  case system | miscMem => simp [noPathWord, hop, Opcode.bits, hasNoPath]
  case lui | auipc | jal =>
    simp [noPathWord, hop, Opcode.bits, hasNoPath, dispatch, decodedOf, Opcode.ofBits]

end

theorem opcodeOf_of_encode {i : Instr} {w : Word} {o : Opcode} (word : encode i = w) (hop : field w 0 7 = o.bits) :
    Laws.opcodeOf i = o := by
  have bits : (Laws.opcodeOf i).bits = o.bits := by rw [← opcode_encode, word, hop]
  have named := Opcode.ofBits_bits (Laws.opcodeOf i)
  rw [bits, Opcode.ofBits_bits] at named
  exact (Option.some.inj named).symm

/-- Settles O30: where dispatch selects no row the step stops; where it selects one, the instruction's own effect is a
dispatch error exactly for the opcodes with no execute path. -/
theorem dispatchErrorExactlyListedWords : Obligations.DispatchErrorExactlyListedWords := by
  intro s w hw recognised
  rcases decodeWord_cases s.cfg.strictDecode w with
    ⟨unnamed, -⟩ | ⟨o, hop, norow, hd⟩ | ⟨o, i, hop, hrow, hd⟩
  · exact absurd recognised ((Opcode.ofBits_eq_none_iff _).mp unnamed)
  · refine ⟨fun _ => ⟨_, by rw [step_fetched hw, hd], raise_stoppedPrecisely s.afterFetch _⟩, fun listed => ?_⟩
    exact absurd ((noPathWord_iff hop).mpr (.inl norow)) listed
  · obtain ⟨-, word⟩ := dispatch_names hop hrow
    have opcode : Laws.opcodeOf i = o := opcodeOf_of_encode word hop
    have runs : step s = exec i s.afterFetch := by rw [step_fetched hw, hd]
    have listed_iff : noPathWord s.cfg.lsEnable s.cfg.strictDecode w ↔
        hasNoPath s.cfg.lsEnable (Laws.opcodeOf i) = true := by
      rw [noPathWord_iff hop, hrow, opcode]
      simp
    constructor
    · intro listed
      have stops := exec_of_hasNoPath (s := s.afterFetch) (listed_iff.mp listed)
      rw [word] at stops
      exact ⟨_, runs.trans stops, raise_stoppedPrecisely s.afterFetch _⟩
    · intro unlisted t w' h ht
      obtain ⟨hr, -, -⟩ := hw
      generalize hwhy : Stop.dispatchError w' = why at ht
      cases execStops_of_exec (s := s.afterFetch) hr ht (runs.symm.trans h) with
      | noPath hp => exact unlisted (listed_iff.mpr hp)
      | loadFails _ _ f => cases f <;> cases hwhy
      | storeFails _ _ _ f => cases f <;> cases hwhy

end Machine
end Sys2Proof
end
